-- ==== Sys2Proof/Word.lean ====
section
/-! DEFINITION. The word types of the ports (10_state.md R25, R26; 30_encoding.md R70).
Bit 0 is the least significant bit of every vector (00_scope.md R15). -/

namespace Sys2Proof

/-- A byte: `byte_in`, `src_in`, `byte_out`, and one byte of the buffer. -/
abbrev Byte := BitVec 8

/-- The command word on port `cmd`, always 32 bits (R70, R78). -/
abbrev CmdWord := BitVec 32

end Sys2Proof
end

