-- ==== Sys2Proof/Config.lean ====
section
/-! DEFINITION. What elaboration fixes for one instance (00_scope.md R6 to R12), and the free values: what the spec
leaves to the host's launch premise (70_reset_and_hazards.md R211, 93_implementation_defined.md I9). -/

namespace Sys2Proof

/-- ORDER (R9): LSB makes the instance a `bitfield_extractor`, MSB a `bitfield_reverser`. -/
inductive Order where
  | lsb
  | msb
deriving DecidableEq, Repr

/-- The elaboration-time parameters of R6 to R11, before they are checked. -/
structure Params where
  /-- VALUE_WIDTH (R6). -/
  W : Nat
  /-- POSITION (R7). -/
  P : Nat
  /-- SIZE (R8). -/
  S : Nat
  /-- Bit order (R9). -/
  order : Order
  /-- BUF_BYTES (R10). -/
  N : Nat
  /-- HAS_SETBUF (R11), by default present. -/
  hasSetbuf : Bool := true
deriving DecidableEq, Repr

/-- LegalConfig of R12. ORDER in {LSB, MSB} and HAS_SETBUF in {0, 1} hold by their types. -/
abbrev Params.Legal (p : Params) : Prop :=
  1 ≤ p.W ∧ 1 ≤ p.S ∧ p.S ≤ p.W ∧ 0 ≤ p.P ∧ 1 ≤ p.N ∧ p.N ≤ 65536 ∧ p.P + p.S ≤ 8 * p.N

/-- The configuration of an instance: parameters that carry the proof of `Legal`, so that an illegal one cannot be
written down (60_exceptions.md R186). -/
structure Config extends Params where
  legal : toParams.Legal
deriving DecidableEq, Repr

/-- The instance that `State.reset` addresses. DESIGN CHOICE (log 1), unsafe: the spec fixes no instance; no statement
about an instruction rests on this one. -/
def Config.atReset : Config :=
  { W := 8, P := 0, S := 8, order := .lsb, N := 65536, hasSetbuf := true, legal := by decide }

/-- FREE VALUE (log 3), safe: what the host's single byte holds before the host has written it (R211). -/
opaque Config.launchByte : Byte

/-- FREE VALUE (log 3), safe: what `src_in` carries before the host has driven it (R211). -/
opaque Config.launchSrc : Byte

/-- FREE VALUE (log 3), safe: what `value_in` carries before the host has driven it (R211), above or within its width. -/
opaque Config.launchValue : Nat

/-- FREE VALUE (log 4), safe: what byte `k` of a buffer port carries while the host has not driven it (R211). -/
opaque Config.launchBuf : Nat → Byte

/-- FREE VALUE (log 4), safe: what the host's memory holds at an address while nobody has written it (R211, I9). -/
opaque Config.launchMem : Nat → Byte

/-- FREE VALUE (log 4), safe: what a host variable for a value holds while the host has not written it (R211). -/
opaque Config.launchVar : Nat → Nat

end Sys2Proof
end

