-- ==== Sys2Proof/Syntax.lean ====
section
/-! DEFINITION. The commands (30_encoding.md R73, opcode_table.json), the command errors (60_exceptions.md R180) and
the assembler's command forms (R81). -/

namespace Sys2Proof

/-- One constructor for each row of opcode_table.json. The `Lsb` and `Msb` rows share their words: the instance's ORDER
picks one (R75). -/
inductive Instr where
  /-- GETB.LSB (R122). -/
  | getbLsb
  /-- SETB.LSB (R123). -/
  | setbLsb
  /-- GETBUF.LSB (R124), with its byte offset BOFF. -/
  | getbufLsb (boff : BitVec 16)
  /-- SETBUF.LSB (R125), with its byte offset BOFF. -/
  | setbufLsb (boff : BitVec 16)
  /-- GETB.MSB (R151). -/
  | getbMsb
  /-- SETB.MSB (R152). -/
  | setbMsb
  /-- GETBUF.MSB (R153), with its byte offset BOFF. -/
  | getbufMsb (boff : BitVec 16)
  /-- SETBUF.MSB (R154), with its byte offset BOFF. -/
  | setbufMsb (boff : BitVec 16)
  /-- BITCOPY (R101), with its bit indices DIDX and SIDX; every 3-bit value is legal (R72). -/
  | bitcopy (didx sidx : BitVec 3)
deriving DecidableEq, Repr

/-- The errors a command can raise (R180), without OK. -/
inductive CmdError where
  /-- Reserved opcode, or SETBUF absent (R181). -/
  | illegalOp
  /-- A reserved or unused field is not zero (R182). -/
  | rsvdField
  /-- The field does not fit the region addressed (R183). -/
  | range
deriving DecidableEq, Repr

/-- The assembler's command forms (R81). An operand that is left out stands for offset 0. -/
inductive Asm where
  | getb
  | setb
  | getbuf (off : Option (BitVec 16))
  | setbuf (off : Option (BitVec 16))
  | bitcopy (didx sidx : BitVec 3)
deriving DecidableEq, Repr

end Sys2Proof
end

