-- ==== Sys2Proof/WellFormed.lean ====
section
/-! DEFINITION. When a command is one of an instance's commands (30_encoding.md R73, R75; 00_scope.md R11): its bit order
is the instance's, and SETBUF is present. Every operand value is legal (R72). -/

namespace Sys2Proof

/-- The order a command belongs to; BITCOPY is the same under both (R75). -/
def Instr.order? : Instr → Option Order
  | .getbLsb => some .lsb
  | .setbLsb => some .lsb
  | .getbufLsb _ => some .lsb
  | .setbufLsb _ => some .lsb
  | .getbMsb => some .msb
  | .setbMsb => some .msb
  | .getbufMsb _ => some .msb
  | .setbufMsb _ => some .msb
  | .bitcopy _ _ => none

/-- Whether a command is the superset extension SETBUF (R11). -/
def Instr.isSetbuf : Instr → Bool
  | .getbLsb => false
  | .setbLsb => false
  | .getbufLsb _ => false
  | .setbufLsb _ => true
  | .getbMsb => false
  | .setbMsb => false
  | .getbufMsb _ => false
  | .setbufMsb _ => true
  | .bitcopy _ _ => false

/-- `i` is a command of an instance with configuration `cfg`. -/
abbrev Instr.WellFormed (cfg : Config) (i : Instr) : Prop :=
  (i.order? = none ∨ i.order? = some cfg.order) ∧ (i.isSetbuf = true → cfg.hasSetbuf = true)

end Sys2Proof
end

