-- ==== Sys2Proof/Decode.lean ====
section
/-! DEFINITION. Decoding a command word (30_encoding.md R71, R72, R76) and, after it, the encoder and the assembler
(R80, R81). -/

namespace Sys2Proof

/-- OP, `cmd[2:0]` (R71). -/
def opOf (cmd : CmdWord) : BitVec 3 := cmd.extractLsb' 0 3

/-- RSV0, `cmd[7:3]` (R71). -/
def rsv0Of (cmd : CmdWord) : BitVec 5 := cmd.extractLsb' 3 5

/-- DIDX, `cmd[10:8]` (R71). -/
def didxOf (cmd : CmdWord) : BitVec 3 := cmd.extractLsb' 8 3

/-- RSV1, `cmd[11]` (R71). -/
def rsv1Of (cmd : CmdWord) : BitVec 1 := cmd.extractLsb' 11 1

/-- SIDX, `cmd[14:12]` (R71). -/
def sidxOf (cmd : CmdWord) : BitVec 3 := cmd.extractLsb' 12 3

/-- RSV2, `cmd[15]` (R71). -/
def rsv2Of (cmd : CmdWord) : BitVec 1 := cmd.extractLsb' 15 1

/-- BOFF, `cmd[31:16]` (R71). -/
def boffOf (cmd : CmdWord) : BitVec 16 := cmd.extractLsb' 16 16

/-- The command of an implemented opcode on an instance of order `order` (R73, R75); the three reserved opcodes have
none. -/
def commandOf (order : Order) (op : BitVec 3) (didx sidx : BitVec 3) (boff : BitVec 16) : Option Instr :=
  match op.toNat, order with
  | 1, .lsb => some .getbLsb
  | 1, .msb => some .getbMsb
  | 2, .lsb => some .setbLsb
  | 2, .msb => some .setbMsb
  | 3, .lsb => some (.getbufLsb boff)
  | 3, .msb => some (.getbufMsb boff)
  | 4, .lsb => some (.setbufLsb boff)
  | 4, .msb => some (.setbufMsb boff)
  | 5, _ => some (.bitcopy didx sidx)
  | _, _ => none

/-- Opcodes whose command has no bit indices, so that DIDX and SIDX must be zero (R74, R76). -/
def opWithoutIndices (op : BitVec 3) : Bool := op == 1#3 || op == 2#3 || op == 3#3 || op == 4#3

/-- Opcodes whose command has no byte offset, so that BOFF must be zero (R74, R76). -/
def opWithoutOffset (op : BitVec 3) : Bool := op == 1#3 || op == 2#3 || op == 5#3

/-- Decode of R76, its checks in that order: reserved opcode, absent SETBUF, reserved fields, unused fields. -/
def decode (cfg : Config) (cmd : CmdWord) : Except CmdError Instr :=
  match commandOf cfg.order (opOf cmd) (didxOf cmd) (sidxOf cmd) (boffOf cmd) with
  | none => .error .illegalOp
  | some i =>
    if opOf cmd = 4#3 ∧ cfg.hasSetbuf = false then .error .illegalOp
    else if rsv0Of cmd ≠ 0#5 ∨ rsv1Of cmd ≠ 0#1 ∨ rsv2Of cmd ≠ 0#1 then .error .rsvdField
    else if opWithoutIndices (opOf cmd) = true ∧ (didxOf cmd ≠ 0#3 ∨ sidxOf cmd ≠ 0#3) then .error .rsvdField
    else if opWithoutOffset (opOf cmd) = true ∧ boffOf cmd ≠ 0#16 then .error .rsvdField
    else .ok i

/-- What the decoder of the instance at reset reads from a row's word. The table's `.LSB` and `.MSB` rows share their
words (R75), so one word has one answer here, that of the reset instance's ORDER (log 9). A row of more than 32 bits
does not exist (R70). -/
def decodeTableWord (nbits w : Nat) : Option Instr :=
  if nbits ≤ 32 then
    match decode Config.atReset (BitVec.ofNat 32 (w % 2 ^ nbits)) with
    | .ok i => some i
    | .error _ => none
  else none

/-- `Encode(OP, DIDX, SIDX, BOFF)` of R80. -/
def encodeFields (op didx sidx : BitVec 3) (boff : BitVec 16) : CmdWord :=
  (boff.setWidth 32 <<< 16) ||| (sidx.setWidth 32 <<< 12) ||| (didx.setWidth 32 <<< 8) ||| op.setWidth 32

/-- The command word of a command (R80). -/
def encode : Instr → CmdWord
  | .getbLsb => encodeFields 1#3 0#3 0#3 0#16
  | .setbLsb => encodeFields 2#3 0#3 0#3 0#16
  | .getbufLsb boff => encodeFields 3#3 0#3 0#3 boff
  | .setbufLsb boff => encodeFields 4#3 0#3 0#3 boff
  | .getbMsb => encodeFields 1#3 0#3 0#3 0#16
  | .setbMsb => encodeFields 2#3 0#3 0#3 0#16
  | .getbufMsb boff => encodeFields 3#3 0#3 0#3 boff
  | .setbufMsb boff => encodeFields 4#3 0#3 0#3 boff
  | .bitcopy didx sidx => encodeFields 5#3 didx sidx 0#16

/-- The word of an assembler form (R80, R81): the default offset is 0, BITCOPY's destination index comes first. -/
def assemble : Asm → CmdWord
  | .getb => encodeFields 1#3 0#3 0#3 0#16
  | .setb => encodeFields 2#3 0#3 0#3 0#16
  | .getbuf off => encodeFields 3#3 0#3 0#3 (off.getD 0#16)
  | .setbuf off => encodeFields 4#3 0#3 0#3 (off.getD 0#16)
  | .bitcopy didx sidx => encodeFields 5#3 didx sidx 0#16

/-- The spelling of an assembler form (R81), every number in decimal. R81 allows that of an offset and says nothing of
BITCOPY's indices: DESIGN CHOICE (log 17), safe. -/
def asmText : Asm → String
  | .getb => "GETB"
  | .setb => "SETB"
  | .getbuf none => "GETBUF"
  | .getbuf (some off) => "GETBUF " ++ toString off.toNat
  | .setbuf none => "SETBUF"
  | .setbuf (some off) => "SETBUF " ++ toString off.toNat
  | .bitcopy didx sidx => "BITCOPY " ++ toString didx.toNat ++ ", " ++ toString sidx.toNat

/-- The words of a line, between spaces. -/
def splitWords : List Char → List (List Char)
  | [] => []
  | ' ' :: cs => [] :: splitWords cs
  | c :: cs =>
    match splitWords cs with
    | [] => [[c]]
    | word :: words => (c :: word) :: words

/-- The value of a hexadecimal digit. -/
def digitValue (c : Char) : Option Nat :=
  if '0' ≤ c ∧ c ≤ '9' then some (c.toNat - '0'.toNat)
  else if 'a' ≤ c ∧ c ≤ 'f' then some (c.toNat - 'a'.toNat + 10)
  else if 'A' ≤ c ∧ c ≤ 'F' then some (c.toNat - 'A'.toNat + 10)
  else none

/-- `acc` continued by digits of a base. -/
def digitsFrom (base : Nat) : List Char → Nat → Option Nat
  | [], acc => some acc
  | c :: cs, acc =>
    match digitValue c with
    | some d => if d < base then digitsFrom base cs (base * acc + d) else none
    | none => none

/-- A number of at least one digit, decimal or 0x-hexadecimal, up to `max`: R81's form of an offset. -/
def numberUpTo (max : Nat) (word : List Char) : Option Nat :=
  let value :=
    match word with
    | [] => none
    | ['0', 'x'] => none
    | '0' :: 'x' :: digits => digitsFrom 16 digits 0
    | digits => digitsFrom 10 digits 0
  match value with
  | some n => if n ≤ max then some n else none
  | none => none

/-- A word that ends in a comma, without it. -/
def withoutComma (word : List Char) : Option (List Char) :=
  match word.reverse with
  | ',' :: rest => some rest.reverse
  | _ => none

/-- The assembler form a line spells (R81); none where it spells none. R81 gives the numeral form of `<off>` alone. That
`<didx>` and `<sidx>` may be decimal or 0x-hexadecimal too, and that words stand between single spaces: DESIGN CHOICE (log 17),
safe. -/
def parseAsm (line : String) : Option Asm :=
  match splitWords line.toList with
  | [op] =>
    if op = "GETB".toList then some .getb
    else if op = "SETB".toList then some .setb
    else if op = "GETBUF".toList then some (.getbuf none)
    else if op = "SETBUF".toList then some (.setbuf none)
    else none
  | [op, off] =>
    match numberUpTo 65535 off with
    | none => none
    | some n =>
      if op = "GETBUF".toList then some (.getbuf (some (BitVec.ofNat 16 n)))
      else if op = "SETBUF".toList then some (.setbuf (some (BitVec.ofNat 16 n)))
      else none
  | [op, didx, sidx] =>
    if op = "BITCOPY".toList then
      match withoutComma didx with
      | none => none
      | some didx =>
        match numberUpTo 7 didx, numberUpTo 7 sidx with
        | some d, some s => some (.bitcopy (BitVec.ofNat 3 d) (BitVec.ofNat 3 s))
        | _, _ => none
    else none
  | _ => none

end Sys2Proof
end

