-- ==== Sys2Proof/Machine/State.lean ====
section
/-! DEFINITION. The state of a system that uses instances (10_state.md R32): the host's memory with its buffers and bytes,
its threads, each with the ports of the instance it addresses, and what the host is about to do. The block itself holds no
state (R20): no registers, no program counter, no flags (R21, R22, R23). -/

namespace Sys2Proof.Machine

open Sys2Proof

/-- Bytes by index, indices strictly rising: a buffer on a port (R50) or the host's memory (R28). An index that is not listed
has been written by nobody and holds no value here (R211): reading it gives a free value (log 4). -/
abbrev Memory := List Host.Cell

/-- The input ports (R25). -/
structure Inputs where
  /-- The command word. -/
  cmd : CmdWord
  /-- The single byte; the destination byte of BITCOPY. -/
  byteIn : Byte
  /-- The source byte of BITCOPY. -/
  srcIn : Byte
  /-- The N-byte buffer. -/
  bufIn : Memory
  /-- The value to encode: an unsigned W-bit number (R30, R55), so below 2^W. -/
  valueIn : Nat
deriving DecidableEq, Repr

/-- The output ports (R26), as the host sampled them at the last issue. -/
structure Outputs where
  /-- The decoded value: an unsigned W-bit number. -/
  valueOut : Nat
  /-- The updated single byte. -/
  byteOut : Byte
  /-- The updated buffer. -/
  bufOut : Memory
  /-- The error code (60_exceptions.md R180). -/
  errCode : BitVec 2
deriving DecidableEq, Repr

/-- Where a thread takes its data inputs from at each issue (R27): an address in the host's memory, or for a value the
name of a variable. None: the port carries what it was last driven with. -/
structure Sources where
  /-- Where `byte_in` comes from (R29). -/
  byte : Option Nat
  /-- Where `src_in` comes from. -/
  src : Option Nat
  /-- Where byte 0 of `buf_in` comes from; byte k is k addresses on (R28). -/
  buf : Option Nat
  /-- The variable that `value_in` comes from. -/
  value : Option Nat
deriving DecidableEq, Repr

/-- One host thread, an agent of R192, with the instance it addresses. -/
structure Thread where
  /-- The configuration of the instance addressed (R24). -/
  cfg : Config
  /-- Its input ports. -/
  inp : Inputs
  /-- Where its data inputs come from. -/
  source : Sources
  /-- The output ports, as the thread sampled them at its last issue. -/
  out : Outputs
  /-- The configuration of the instance that drove `out`. -/
  outOf : Config
  /-- The thread's variables for values, as (name, value), names strictly rising (95_test_vectors.md section 3). -/
  vars : List (Nat × Nat)
deriving DecidableEq, Repr

/-- One agent's use of the bytes `[lo, hi)` of the host's memory (20_memory.md R62). -/
structure Access where
  agent : Nat
  lo : Nat
  hi : Nat
  /-- The agent writes a result back there. -/
  writesBack : Bool
deriving DecidableEq, Repr

/-- What the host does between issues, one action a step (R28, R29, R32; 95_test_vectors.md section 3). Every action but
`turn` and `serialise` is one of the present thread's. -/
inductive HostAction where
  /-- The host's threads are numbered; the next actions are thread `agent`'s (R192). -/
  | turn (agent : Nat)
  /-- Turn to an instance elaborated with these parameters (R192). -/
  | select (p : Params)
  /-- Present a command word. -/
  | driveCmd (w : CmdWord)
  /-- Drive the single byte with a byte of no host object. -/
  | driveByte (b : Byte)
  /-- Drive the source byte with a byte of no host object. -/
  | driveSrc (b : Byte)
  /-- Drive the buffer with bytes of no host object, byte 0 first (R212: exactly N bytes). -/
  | driveBuf (bs : List Byte)
  /-- Drive the value with a number; the port keeps its low W bits. -/
  | driveValue (v : Nat)
  /-- Present the host's byte at an address as the single byte (R29). -/
  | presentByte (a : Nat)
  /-- Present the host's byte at an address as the source byte. -/
  | presentSrc (a : Nat)
  /-- Present the host's N bytes from an address as the buffer (R28, R212). -/
  | presentBuf (a : Nat)
  /-- Present a variable as the value to encode. -/
  | presentValue (x : Nat)
  /-- Store `byte_out` in the host's memory: where `byte_in` came from (R29), or elsewhere (R81). -/
  | storeByte (a : Nat)
  /-- Store `buf_out` in the host's memory: where `buf_in` came from (R28), or elsewhere (R81). -/
  | storeBuf (a : Nat)
  /-- Store `value_out` in a variable. -/
  | storeValue (x : Nat)
  /-- Store `err_code` in a variable. -/
  | storeErr (x : Nat)
  /-- Write bytes of the host's own into its memory. -/
  | write (a : Nat) (bs : List Byte)
  /-- Read `n` bytes of the host's memory without a command. -/
  | read (a n : Nat)
  /-- Copy `n` bytes of the host's memory (`x <- a`; 95_test_vectors.md P5). -/
  | copy (src dst n : Nat)
  /-- Write a number into a variable. -/
  | setVar (x v : Nat)
  /-- Issue the present inputs (R27); an error is a fault (R187). -/
  | issue
  /-- The host orders everything its agents did so far before what follows (R62). -/
  | serialise
deriving DecidableEq, Repr

/-- Why an elaboration is refused (00_scope.md R12): the first condition that fails. -/
inductive ConfigError where
  /-- W ≥ 1 fails. -/
  | valueWidthZero
  /-- S ≥ 1 fails. -/
  | sizeZero
  /-- S ≤ W fails. -/
  | sizeExceedsValue
  /-- 1 ≤ N ≤ 65536 fails. -/
  | bufferLength
  /-- P + S ≤ 8 N fails. -/
  | fieldExceedsBuffer
deriving DecidableEq, Repr

/-- The machine's state: the thread whose turn it is, and what its threads share. -/
structure State extends Thread where
  /-- The number of the thread whose turn it is. -/
  agent : Nat
  /-- The other threads that have acted, by number, numbers strictly rising (R192). -/
  parked : List (Nat × Thread)
  /-- The host's memory, which holds its buffers and bytes (R28, R29, R32). -/
  mem : Memory
  /-- The model's own: what the host does next, oldest first (log 11). With nothing pending a step is one issue. -/
  pending : List HostAction
  /-- The model's own: the accesses since the host last serialised its agents (log 13). -/
  accesses : List Access
deriving DecidableEq, Repr

/-- Why a step stops. R187: an issue whose `err_code` is not 0 is a fault; it carries the block's outputs (R32, R185). -/
inductive Fault where
  /-- ILLEGAL_OP, raised by decoding and by SETBUF on an instance without it (R181). Safe: nothing is written (R185). -/
  | illegalOp (out : Outputs)
  /-- RSVD_FIELD, raised by decoding (R182). Safe: nothing is written. -/
  | rsvdField (out : Outputs)
  /-- RANGE, raised by the byte and buffer commands (R183). Safe: nothing is written. -/
  | range (out : Outputs)
  /-- Two agents used overlapping bytes, one of them writing back, with nothing to order them (70_reset_and_hazards.md
  R215). Raised by an issue and by a thread's stores, writes, reads and copies. Safe: no outcome is picked. -/
  | race
deriving DecidableEq, Repr

/-- What the model gives no meaning. -/
inductive Refusal where
  /-- Raised by `exec` for an instruction without a meaning; no arm of this model does. Safe. -/
  | notModelled (mnemonic : String)
  /-- Raised by the host's selecting an instance whose configuration is illegal: no such instance exists (R186). Safe. -/
  | illegalConfig (e : ConfigError)
  /-- Raised by the host's presenting a buffer that has not exactly N bytes (R212). Safe. -/
  | bufferSize
deriving DecidableEq, Repr

/-- A thread before it has done anything: an undriven-low command word, free values on the data inputs, no byte of the
buffer driven (R211; logs 2, 3, 4), and the outputs that these inputs give: an all-zero word is ILLEGAL_OP (R210, R211;
log 5). -/
def Thread.initial : Thread where
  cfg := Config.atReset
  inp :=
    { cmd := 0#32
      byteIn := Config.launchByte
      srcIn := Config.launchSrc
      bufIn := []
      valueIn := Config.launchValue % 2 ^ Config.atReset.W }
  source := { byte := none, src := none, buf := none, value := none }
  out :=
    { valueOut := 0
      byteOut := Config.launchByte
      bufOut := []
      errCode := 1#2 }
  outOf := Config.atReset
  vars := []

/-- Before the host has done anything; nobody has written its memory (R211). The block has no reset of its own (R210). -/
def State.reset : State where
  toThread := Thread.initial
  agent := 0
  parked := []
  mem := []
  pending := []
  accesses := []

end Sys2Proof.Machine
end

