-- ==== Sys2Proof/Machine/Ops.lean ====
section
/-! DEFINITION. The named operations over buffers, the host's memory, the ports and the outcomes. -/

namespace Sys2Proof.Machine

open Sys2Proof

/-- One step's answer. -/
abbrev Result := Host.Outcome State Fault Refusal

/-- Go on with `f` where `r` is a next state; a stop stays that stop. -/
def andThen (r : Result) (f : State → Result) : Result :=
  match r with
  | .next s => f s
  | .fault e => .fault e
  | .refused e => .refused e

/-- What a table holds at index `k`; none where nothing is listed. -/
def Memory.read? {α : Type} : List (Nat × α) → Nat → Option α
  | [], _ => none
  | (a, b) :: m, k => if a = k then some b else Memory.read? m k

/-- Write one entry, keeping the indices strictly rising. No written byte is dropped: an unlisted index has no value that
it could equal. -/
def Memory.write {α : Type} : List (Nat × α) → Nat → α → List (Nat × α)
  | [], k, v => [(k, v)]
  | (a, b) :: m, k, v =>
    if k < a then (k, v) :: (a, b) :: m
    else if k = a then (k, v) :: m
    else (a, b) :: Memory.write m k v

/-- The canonical form: indices strictly rising. -/
abbrev Memory.wf {α : Type} (m : List (Nat × α)) : Prop := (m.map Prod.fst).Pairwise (· < ·)

/-- Every index listed is one of an `n`-byte buffer's. -/
abbrev Memory.within (n : Nat) (m : Memory) : Prop := ∀ c ∈ m, c.1 < n

/-- What is left of a buffer on a port of `n` bytes. -/
def Memory.restrict (n : Nat) (m : Memory) : Memory := m.filter (fun c => decide (c.1 < n))

/-- The buffer with byte `k + j` equal to the `j`-th of `bs`, and nothing else written. -/
def Memory.ofBytesFrom : Nat → List Byte → Memory
  | _, [] => []
  | k, b :: bs => (k, b) :: Memory.ofBytesFrom (k + 1) bs

/-- A whole buffer as the host presents it, byte 0 first (R50). -/
def Memory.ofBytes (bs : List Byte) : Memory := Memory.ofBytesFrom 0 bs

/-- Buffer byte `k`, `buf[8k+7 : 8k]` (R50). Where the host has written nothing it is a FREE VALUE (R211; log 4). -/
def byteAt (m : Memory) (k : Nat) : Byte := (Memory.read? m k).getD (Config.launchBuf k)

/-- `MemRead(addr, n)` of R16: `n` bytes from byte index `addr` as one little-endian number. -/
def memRead (m : Memory) (addr : Nat) : Nat → Nat
  | 0 => 0
  | n + 1 => memRead m addr n + (byteAt m (addr + n)).toNat * 2 ^ (8 * n)

/-- `MemWrite(addr, n, v)` of R16: the low `8n` bits of `v` as `n` bytes from byte index `addr`. -/
def memWrite (m : Memory) (addr : Nat) (v : Nat) : Nat → Memory
  | 0 => m
  | n + 1 => Memory.write (memWrite m addr v n) (addr + n) (BitVec.ofNat 8 (v / 2 ^ (8 * n)))

/-- The host's byte at an address. Where nobody has written it is a FREE VALUE (R211; log 4). -/
def hostByte (m : Memory) (a : Nat) : Byte := (Memory.read? m a).getD (Config.launchMem a)

/-- The host's `n` bytes from address `a`. -/
def hostBytes (m : Memory) (a n : Nat) : List Byte := (List.range n).map (fun k => hostByte m (a + k))

/-- The host's memory with bytes stored from address `a` on. -/
def storeBytes : Memory → Nat → List Byte → Memory
  | m, _, [] => m
  | m, a, b :: bs => storeBytes (Memory.write m a b) (a + 1) bs

/-- A thread's variable. Where it has not been written it is a FREE VALUE (R211; log 4). -/
def varAt (vars : List (Nat × Nat)) (x : Nat) : Nat := (Memory.read? vars x).getD (Config.launchVar x)

/-- A number driven onto a port of `w` bits, truncated to the port's width (R15, R16). -/
def truncTo (w v : Nat) : Nat := v % 2 ^ w

/-- Each output at the value it has when a command does not drive it, with `err_code` OK (R26). -/
def defaultOutputs (inp : Inputs) : Outputs :=
  { valueOut := 0, byteOut := inp.byteIn, bufOut := inp.bufIn, errCode := 0#2 }

/-- The issue completes with these outputs; nothing else changes (R27, R28: the block writes no operand). -/
def complete (out : Outputs) (s : State) : Result := .next { s with out := out }

end Sys2Proof.Machine
end

