-- ==== Sys2Proof/Machine/Flags.lean ====
section
/-! DEFINITION. The status output. The block has no flags and no condition codes (10_state.md R23); `err_code` is its only
status, a function of the present issue and never sticky (60_exceptions.md R180), and raising an error is one operation
(R185). -/

namespace Sys2Proof.Machine

open Sys2Proof

/-- The codes of R180. -/
def errBits : Option CmdError → BitVec 2
  | none => 0#2
  | some .illegalOp => 1#2
  | some .rsvdField => 2#2
  | some .range => 3#2

/-- The outputs of a command that raises `e`: nothing is written (R185). -/
def faultOutputs (e : CmdError) (inp : Inputs) : Outputs :=
  { valueOut := 0, byteOut := inp.byteIn, bufOut := inp.bufIn, errCode := errBits (some e) }

/-- `raise Fault(code)` (R16, R185). The outcome is a fault (R187) that carries the block's outputs (R32); there is no trap
entry and nothing is saved (R189). -/
def raise (e : CmdError) (s : State) : Result :=
  match e with
  | .illegalOp => .fault (.illegalOp (faultOutputs .illegalOp s.inp))
  | .rsvdField => .fault (.rsvdField (faultOutputs .rsvdField s.inp))
  | .range => .fault (.range (faultOutputs .range s.inp))

/-- The outputs a faulting issue drives; a race has none. -/
def faultOuts : Fault → Option Outputs
  | .illegalOp out => some out
  | .rsvdField out => some out
  | .range out => some out
  | .race => none

end Sys2Proof.Machine
end

