-- ==== Sys2Proof/Machine/Operands.lean ====
section
/-! DEFINITION. Field spans, stream bits, value marshalling and the range checks (20_memory.md R50 to R55; 60_exceptions.md
R183), and the single-bit copy both codecs share (40_bit_copy.md R100). -/

namespace Sys2Proof.Machine

open Sys2Proof

/-- `Mask(k) = 2^k - 1` (R15). -/
def mask (k : Nat) : Nat := 2 ^ k - 1

/-- BYTE_FORMS_OK (00_scope.md R13): the byte forms have a meaning on this instance. -/
def byteFormsOk (cfg : Config) : Bool := decide (cfg.P + cfg.S ≤ 8)

/-- The first stream bit of a buffer command's field: `P + 8*BOFF` (R53, R72). -/
def fieldBase (cfg : Config) (boff : BitVec 16) : Nat := cfg.P + 8 * boff.toNat

/-- The stream bit past the field's last: `P + 8*BOFF + S` (R53). -/
def fieldEnd (cfg : Config) (boff : BitVec 16) : Nat := cfg.P + 8 * boff.toNat + cfg.S

/-- The field lies within the buffer; its end may be the buffer's end (R183). -/
def bufFits (cfg : Config) (boff : BitVec 16) : Bool := decide (fieldEnd cfg boff ≤ 8 * cfg.N)

/-- `BitCopy(dst, di, src, si)` (R100), for bit indices 0 to 7. -/
def bitCopy (dst : Byte) (di : Nat) (src : Byte) (si : Nat) : Byte :=
  (dst &&& ~~~(1#8 <<< di)) ||| (((src >>> si) &&& 1#8) <<< di)

/-- Byte `k` of a value, `value[8k+7 : 8k]` (R55). -/
def valueByte (v k : Nat) : Byte := BitVec.ofNat 8 (v / 2 ^ (8 * k))

/-- `StreamBit(buf, i)`: bit `i mod 8` of byte `i div 8` (R51, R52). -/
def streamBit (m : Memory) (i : Nat) : Bool := (byteAt m (i / 8)).getLsbD (i % 8)

/-- Copy value bit `d` into stream bit `i` of a buffer: `SetStreamBit(buf, i, value[d])` (R52), by the single-bit copy from
value byte `d div 8` (R55, R100). -/
def setStreamBit (m : Memory) (i : Nat) (v d : Nat) : Memory :=
  Memory.write m (i / 8) (bitCopy (byteAt m (i / 8)) (i % 8) (valueByte v (d / 8)) (d % 8))

/-- The number whose bit `d` is `f d` for `d < n`, and whose other bits are 0: `t[n-1:0]` after a loop over its bits. -/
def gather (f : Nat → Bool) : Nat → Nat
  | 0 => 0
  | n + 1 => gather f n + (if f n then 2 ^ n else 0)

/-- Copy value bits 0 to `n - 1` into a byte, bit `d` to byte bit `place d`, one BitCopy a bit (R126, R152). -/
def scatterByte (place : Nat → Nat) (v : Nat) : Nat → Byte → Byte
  | 0, b => b
  | n + 1, b => bitCopy (scatterByte place v n b) (place n) (valueByte v (n / 8)) (n % 8)

/-- Copy value bits 0 to `n - 1` into a buffer, bit `d` to stream bit `place d`; every other bit stays (R125, R154). -/
def scatterBuf (place : Nat → Nat) (v : Nat) : Nat → Memory → Memory
  | 0, m => m
  | n + 1, m => setStreamBit (scatterBuf place v n m) (place n) v n

/-- The byte forms' check (R183), before anything is driven. -/
def withByteForm (s : State) (out : Outputs) : Result :=
  if byteFormsOk s.cfg = true then complete out s else raise .range s

/-- The buffer forms' range check (R183). -/
def withBufField (s : State) (boff : BitVec 16) (out : Outputs) : Result :=
  if bufFits s.cfg boff = true then complete out s else raise .range s

/-- SETBUF's checks: present on this instance (R181), then the range (R184). -/
def withSetbuf (s : State) (boff : BitVec 16) (out : Outputs) : Result :=
  if s.cfg.hasSetbuf = true then withBufField s boff out else raise .illegalOp s

/-- The outputs of a command that drives `value_out`: a number, zero-extended or truncated to the port (R16, R74). -/
def valueOutputs (s : State) (t : Nat) : Outputs :=
  { defaultOutputs s.inp with valueOut := truncTo s.cfg.W t }

/-- The outputs of a command that drives `byte_out` (R74). -/
def byteOutputs (s : State) (b : Byte) : Outputs := { defaultOutputs s.inp with byteOut := b }

/-- The outputs of a command that drives `buf_out` (R74). -/
def bufOutputs (s : State) (m : Memory) : Outputs := { defaultOutputs s.inp with bufOut := m }

end Sys2Proof.Machine
end

