-- ==== Sys2Proof/Machine/BitCopy.lean ====
section
/-! DEFINITION. The bit_copy_primitive (40_bit_copy.md). -/

namespace Sys2Proof.Machine

open Sys2Proof

/-- BITCOPY (R101): bit SIDX of `src_in` into bit DIDX of `byte_in`. It raises nothing. -/
def execBitcopy (didx sidx : BitVec 3) (s : State) : Result :=
  complete (byteOutputs s (bitCopy s.inp.byteIn didx.toNat s.inp.srcIn sidx.toNat)) s

end Sys2Proof.Machine
end

