-- ==== Sys2Proof/Machine/Extractor.lean ====
section
/-! DEFINITION. The bitfield_extractor, the LSB-first codec (41_extractor_lsb.md). -/

namespace Sys2Proof.Machine

open Sys2Proof

/-- GETB.LSB (R122): shift, mask, zero-extend. -/
def execGetbLsb (s : State) : Result :=
  withByteForm s (valueOutputs s ((s.inp.byteIn.toNat >>> s.cfg.P) &&& mask s.cfg.S))

/-- SETB.LSB (R123): clear the span, or in the value's low S bits. -/
def execSetbLsb (s : State) : Result :=
  withByteForm s (byteOutputs s
    ((s.inp.byteIn &&& ~~~(BitVec.ofNat 8 (mask s.cfg.S <<< s.cfg.P)))
      ||| BitVec.ofNat 8 ((s.inp.valueIn &&& mask s.cfg.S) <<< s.cfg.P)))

/-- GETBUF.LSB (R124): value bit `d` is stream bit `base + d`. -/
def execGetbufLsb (boff : BitVec 16) (s : State) : Result :=
  withBufField s boff (valueOutputs s
    (gather (fun d => streamBit s.inp.bufIn (fieldBase s.cfg boff + d)) s.cfg.S))

/-- SETBUF.LSB (R125): stream bit `base + d` becomes value bit `d`, every other bit stays. -/
def execSetbufLsb (boff : BitVec 16) (s : State) : Result :=
  withSetbuf s boff (bufOutputs s
    (scatterBuf (fun d => fieldBase s.cfg boff + d) s.inp.valueIn s.cfg.S s.inp.bufIn))

end Sys2Proof.Machine
end

