-- ==== Sys2Proof/Machine/Reverser.lean ====
section
/-! DEFINITION. The bitfield_reverser, the MSB-first codec (42_reverser_msb.md): value bit `d` is `d` places below the top
of the span (R150). -/

namespace Sys2Proof.Machine

open Sys2Proof

/-- GETB.MSB (R151): value bit `P + S - 1 - p` is byte bit `p`, so value bit `d` is byte bit `P + S - 1 - d`. -/
def execGetbMsb (s : State) : Result :=
  withByteForm s (valueOutputs s
    (gather (fun d => s.inp.byteIn.getLsbD (s.cfg.P + s.cfg.S - 1 - d)) s.cfg.S))

/-- SETB.MSB (R152): byte bit `P + S - 1 - p` becomes value bit `p`, by single-bit copies. -/
def execSetbMsb (s : State) : Result :=
  withByteForm s (byteOutputs s
    (scatterByte (fun p => s.cfg.P + s.cfg.S - 1 - p) s.inp.valueIn s.cfg.S s.inp.byteIn))

/-- GETBUF.MSB (R153): value bit `d` is stream bit `end_bit - d - 1`. -/
def execGetbufMsb (boff : BitVec 16) (s : State) : Result :=
  withBufField s boff (valueOutputs s
    (gather (fun d => streamBit s.inp.bufIn (fieldEnd s.cfg boff - d - 1)) s.cfg.S))

/-- SETBUF.MSB (R154): stream bit `end_bit - d - 1` becomes value bit `d`, every other bit stays. -/
def execSetbufMsb (boff : BitVec 16) (s : State) : Result :=
  withSetbuf s boff (bufOutputs s
    (scatterBuf (fun d => fieldEnd s.cfg boff - d - 1) s.inp.valueIn s.cfg.S s.inp.bufIn))

end Sys2Proof.Machine
end

