-- ==== Sys2Proof/Machine/Dispatch.lean ====
section
/-! DEFINITION. One arm for each command (30_encoding.md R73). -/

namespace Sys2Proof.Machine

open Sys2Proof

/-- The effect of one decoded command on the present inputs (10_state.md R32). -/
def exec (i : Instr) (s : State) : Host.Outcome State Fault Refusal :=
  match i with
  | .getbLsb => Sys2Proof.Machine.execGetbLsb s
  | .setbLsb => Sys2Proof.Machine.execSetbLsb s
  | .getbufLsb boff => Sys2Proof.Machine.execGetbufLsb boff s
  | .setbufLsb boff => Sys2Proof.Machine.execSetbufLsb boff s
  | .getbMsb => Sys2Proof.Machine.execGetbMsb s
  | .setbMsb => Sys2Proof.Machine.execSetbMsb s
  | .getbufMsb boff => Sys2Proof.Machine.execGetbufMsb boff s
  | .setbufMsb boff => Sys2Proof.Machine.execSetbufMsb boff s
  | .bitcopy didx sidx => Sys2Proof.Machine.execBitcopy didx sidx s

end Sys2Proof.Machine
end

