-- ==== Sys2Proof/Machine/Issue.lean ====
section
/-! DEFINITION. One issue (10_state.md R27, R32): sample the inputs, decode, then the command or its error; and the race of
unserialised agents (70_reset_and_hazards.md R215). -/

namespace Sys2Proof.Machine

open Sys2Proof

/-- Two uses race: by different agents, of a byte in common, at least one of them writing back (R215). -/
def conflict (a b : Access) : Bool :=
  decide (a.agent ≠ b.agent) && decide (max a.lo b.lo < min a.hi b.hi) && (a.writesBack || b.writesBack)

/-- Record an access, or fault where it races with one the host has not ordered before it (R215). -/
def note (a : Access) (s : State) : Result :=
  if s.accesses.any (conflict a) = true then .fault .race
  else .next { s with accesses := if a ∈ s.accesses then s.accesses else a :: s.accesses }

/-- Record several accesses. -/
def noteAll : List Access → State → Result
  | [], s => .next s
  | a :: as, s => andThen (note a s) (noteAll as)

/-- The present thread's use of the host's `n` bytes from address `a`. -/
def useOf (s : State) (a n : Nat) (writesBack : Bool) : Access :=
  { agent := s.agent, lo := a, hi := a + n, writesBack := writesBack }

/-- The reading of bytes `[lo, hi)` of an operand that comes from the host's memory; an operand that does not is no shared
resource (60_exceptions.md R192). -/
def readFrom (s : State) (source : Option Nat) (lo hi : Nat) : List Access :=
  match source with
  | none => []
  | some a => [{ agent := s.agent, lo := a + lo, hi := a + hi, writesBack := false }]

/-- A buffer read touches the bytes that hold a bit of its field (R53, R59). -/
def fieldRead (s : State) (boff : BitVec 16) : List Access :=
  readFrom s s.source.buf (fieldBase s.cfg boff / 8) ((fieldEnd s.cfg boff + 7) / 8)

/-- What a command that completes has read of the host's memory (R59). It writes nothing: the host's write-back does
(R28). -/
def accessesOf (s : State) : Instr → List Access
  | .getbLsb => readFrom s s.source.byte 0 1
  | .setbLsb => readFrom s s.source.byte 0 1
  | .getbufLsb boff => fieldRead s boff
  | .setbufLsb _ => readFrom s s.source.buf 0 s.cfg.N
  | .getbMsb => readFrom s s.source.byte 0 1
  | .setbMsb => readFrom s s.source.byte 0 1
  | .getbufMsb boff => fieldRead s boff
  | .setbufMsb _ => readFrom s s.source.buf 0 s.cfg.N
  | .bitcopy _ _ => readFrom s s.source.byte 0 1 ++ readFrom s s.source.src 0 1

/-- A byte port at an issue: the host's byte it comes from, or what it was driven with. -/
def sampleByte (s : State) (source : Option Nat) (driven : Byte) : Byte :=
  match source with
  | none => driven
  | some a => hostByte s.mem a

/-- The buffer port at an issue: the host's N bytes (R212). -/
def sampleBuf (s : State) : Memory :=
  match s.source.buf with
  | none => s.inp.bufIn
  | some a => Memory.ofBytes (hostBytes s.mem a s.cfg.N)

/-- The value port at an issue, W bits wide. -/
def sampleValue (s : State) : Nat :=
  match s.source.value with
  | none => s.inp.valueIn
  | some x => truncTo s.cfg.W (varAt s.vars x)

/-- The inputs as the thread presents them at an issue, all from the same moment (R27, R59, R212). -/
def sample (s : State) : State :=
  { s with inp :=
      { cmd := s.inp.cmd
        byteIn := sampleByte s s.source.byte s.inp.byteIn
        srcIn := sampleByte s s.source.src s.inp.srcIn
        bufIn := sampleBuf s
        valueIn := sampleValue s } }

/-- The block alone: the present command on the inputs present (R32, R76). -/
def runCommand (s : State) : Result :=
  match decode s.cfg s.inp.cmd with
  | .error e => raise e s
  | .ok i => exec i s

/-- An issue of inputs already sampled: the block's answer, whose outputs are this instance's, and what it read is recorded
against the other agents. -/
def issueSampled (s : State) : Result :=
  match decode s.cfg s.inp.cmd with
  | .error e => raise e s
  | .ok i => andThen (exec i s) (fun t => noteAll (accessesOf s i) { t with outOf := s.cfg })

/-- One issue (R27). -/
def issue (s : State) : Result := issueSampled (sample s)

/-- Every output of the block on its present inputs, faulting or not: the total function of R27 and R32. -/
def respond (s : State) : Outputs :=
  match runCommand s with
  | .next t => t.out
  | .fault f => (faultOuts f).getD (defaultOutputs s.inp)
  | .refused _ => defaultOutputs s.inp

/-- Where `r`, the outcome of the step from `s`, is an error's fault: the state of a host that reads `err_code` on that issue
(60_exceptions.md R189) and goes on. The error leaves R185's outputs and no other state (R190). A race stays a stop. -/
def goOnReading (s : State) (r : Result) : Result :=
  match r with
  | .next t => .next t
  | .fault f =>
    match faultOuts f with
    | some out => .next { s with out := out, outOf := s.cfg, pending := s.pending.tail }
    | none => .fault f
  | .refused e => .refused e

end Sys2Proof.Machine
end

