-- ==== Sys2Proof/Machine/HostSide.lean ====
section
/-! DEFINITION. What the host does around the block: elaborating instances (00_scope.md R12; 60_exceptions.md R186),
presenting inputs, storing results back in steps of its own (10_state.md R28, R29, R32), and its threads (R192). -/

namespace Sys2Proof.Machine

open Sys2Proof

/-- The first condition of R12 that fails, by name; none where the configuration is legal. -/
def configError (p : Params) : Option ConfigError :=
  if p.W = 0 then some .valueWidthZero
  else if p.S = 0 then some .sizeZero
  else if p.W < p.S then some .sizeExceedsValue
  else if p.N = 0 ∨ 65536 < p.N then some .bufferLength
  else if 8 * p.N < p.P + p.S then some .fieldExceedsBuffer
  else none

/-- Elaboration (R12, R186): an instance, or a descriptive refusal and no instance. -/
def elaborate (p : Params) : Except ConfigError Config :=
  if h : p.Legal then .ok { toParams := p, legal := h }
  else .error ((configError p).getD .fieldExceedsBuffer)

/-- What a value port of `w` bits carries when it becomes one of `w'` bits: the bits it has, and on lines that are new to it,
which nobody has driven, those of the free launch value (R211; logs 3, 12). -/
def widenValue (w w' v : Nat) : Nat := truncTo w' (truncTo w v + 2 ^ w * (Config.launchValue / 2 ^ w))

/-- The thread addresses another instance. What its ports were driven with stays, as far as the new widths have room, and what
was never driven stays free: DESIGN CHOICE (log 12). The outputs sampled and all host data stay whole. -/
def refit (cfg : Config) (s : State) : State :=
  { s with
    cfg := cfg
    inp := { s.inp with
      bufIn := Memory.restrict cfg.N s.inp.bufIn
      valueIn := widenValue s.cfg.W cfg.W s.inp.valueIn } }

/-- The threads by number, with the present one among them. -/
def allThreads (s : State) : List (Nat × Thread) := Memory.write s.parked s.agent s.toThread

/-- Thread `n`, which is as `Thread.initial` until it first acts. -/
def threadOf (s : State) (n : Nat) : Thread := (Memory.read? (allThreads s) n).getD Thread.initial

/-- Thread `n`'s turn. The threads share the host's memory alone (R192). -/
def turnTo (n : Nat) (s : State) : State :=
  { s with
    toThread := threadOf s n
    agent := n
    parked := (allThreads s).filter (fun c => decide (c.1 ≠ n)) }

/-- Bytes stored in the host's memory. -/
def storeOp (a : Nat) (bs : List Byte) (s : State) : State := { s with mem := storeBytes s.mem a bs }

/-- A number stored in one of the thread's variables. -/
def setVarOp (x v : Nat) (s : State) : State := { s with vars := Memory.write s.vars x v }

/-- The bytes of `buf_out` as sampled, one for each of its instance's N. -/
def bufOutBytes (s : State) : List Byte := (List.range s.outOf.N).map (byteAt s.out.bufOut)

/-- A store: the bytes are written, and the writing is an access that writes back (R215). -/
def store (a : Nat) (bs : List Byte) (s : State) : Result := note (useOf s a bs.length true) (storeOp a bs s)

/-- One action of the host. -/
def hostAct (act : HostAction) (s : State) : Result :=
  match act with
  | .turn n => .next (turnTo n s)
  | .select p =>
    match elaborate p with
    | .ok cfg => .next (refit cfg s)
    | .error e => .refused (.illegalConfig e)
  | .driveCmd w => .next { s with inp := { s.inp with cmd := w } }
  | .driveByte b => .next { s with inp := { s.inp with byteIn := b }, source := { s.source with byte := none } }
  | .driveSrc b => .next { s with inp := { s.inp with srcIn := b }, source := { s.source with src := none } }
  | .driveBuf bs =>
    if bs.length = s.cfg.N then
      .next { s with inp := { s.inp with bufIn := Memory.ofBytes bs }, source := { s.source with buf := none } }
    else .refused .bufferSize
  | .driveValue v =>
    .next { s with inp := { s.inp with valueIn := truncTo s.cfg.W v }, source := { s.source with value := none } }
  | .presentByte a => .next { s with source := { s.source with byte := some a } }
  | .presentSrc a => .next { s with source := { s.source with src := some a } }
  | .presentBuf a => .next { s with source := { s.source with buf := some a } }
  | .presentValue x => .next { s with source := { s.source with value := some x } }
  | .storeByte a => store a [s.out.byteOut] s
  | .storeBuf a => store a (bufOutBytes s) s
  | .storeValue x => .next (setVarOp x s.out.valueOut s)
  | .storeErr x => .next (setVarOp x s.out.errCode.toNat s)
  | .write a bs => store a bs s
  | .read a n => note (useOf s a n false) s
  | .copy src dst n => andThen (note (useOf s src n false) s) (store dst (hostBytes s.mem src n))
  | .setVar x v => .next (setVarOp x v s)
  | .issue => issue s
  | .serialise => .next { s with accesses := [] }

/-- A data input of a host-level line (30_encoding.md R81): the host's, by address or name, or given as data. -/
inductive LineInput (α : Type) where
  | host (a : Nat)
  | given (x : α)
deriving DecidableEq, Repr

/-- A host-level line, `<dst> <- <inst>.<COMMAND> [operands] (byte_in=<x>, src_in=<y>, buf_in=<B>, value_in=<v>)` (R81). What
is left out stays as the thread has it; a line of BITCOPY may name no instance (95_test_vectors.md P4). -/
structure HostLine where
  dst : Option Nat
  inst : Option Params
  command : Asm
  byteIn : Option (LineInput Byte)
  srcIn : Option (LineInput Byte)
  bufIn : Option (LineInput (List Byte))
  valueIn : Option (LineInput Nat)
deriving DecidableEq, Repr

/-- The action that sets one input of a line. -/
def setInput {α : Type} (present : Nat → HostAction) (drive : α → HostAction) : Option (LineInput α) → List HostAction
  | none => []
  | some (.host a) => [present a]
  | some (.given x) => [drive x]

/-- The store of a line's result: the output its command drives (R74). -/
def storeResult (command : Asm) (dst : Nat) : HostAction :=
  match command with
  | .getb => .storeValue dst
  | .setb => .storeByte dst
  | .getbuf _ => .storeValue dst
  | .setbuf _ => .storeBuf dst
  | .bitcopy _ _ => .storeByte dst

/-- The host's actions of a line: address the instance, present the command with its inputs, issue, store (R81, R212). -/
def HostLine.actions (l : HostLine) : List HostAction :=
  (l.inst.map HostAction.select).toList ++ [.driveCmd (assemble l.command)] ++
    setInput .presentByte .driveByte l.byteIn ++ setInput .presentSrc .driveSrc l.srcIn ++
    setInput .presentBuf .driveBuf l.bufIn ++ setInput .presentValue .driveValue l.valueIn ++ [.issue] ++
    (l.dst.map (storeResult l.command)).toList

end Sys2Proof.Machine
end

