-- ==== Sys2Proof/Machine/Step.lean ====
section
/-! DEFINITION. One step (10_state.md R32): the host's next action, or, with none pending, one issue of the inputs present.
No command is fetched: command words arrive on port `cmd` alone (20_memory.md R64). -/

namespace Sys2Proof.Machine

open Sys2Proof

/-- One step of the system. -/
def step (s : State) : Host.Outcome State Fault Refusal :=
  match s.pending with
  | [] => issue s
  | a :: rest => hostAct a { s with pending := rest }

/-- A step by a host that reads `err_code` itself and goes on after an error (R189, R190). It is not the machine's step, of
which an error is a fault (R187), and no safe run is made of it (log 6). -/
def stepReading (s : State) : Host.Outcome State Fault Refusal := goOnReading s (step s)

/-- `s` with a row's word on port `cmd`, nothing pending and no other agent's access outstanding, so that the next step
issues it (log 9). -/
def State.withFetchWord (s : State) (nbits w : Nat) : State :=
  { s with
    inp := { s.inp with cmd := BitVec.ofNat 32 (w % 2 ^ nbits) }
    pending := []
    accesses := [] }

end Sys2Proof.Machine
end

