-- ==== Sys2Proof/Safety.lean ====
section
/-! DEFINITION. What the statements take for granted of a state, and what a safe run is (60_exceptions.md R187). -/

namespace Sys2Proof.Machine

open Sys2Proof

/-- What every thread has: each value port within the W bits of its instance (10_state.md R25, R26, R30), each buffer port
in canonical form and within its instance's N bytes (R31, R50), and its variables in canonical form. -/
structure Thread.Inv (c : Thread) : Prop where
  valueIn_lt : c.inp.valueIn < 2 ^ c.cfg.W
  valueOut_lt : c.out.valueOut < 2 ^ c.outOf.W
  bufIn_wf : Memory.wf c.inp.bufIn
  bufIn_within : Memory.within c.cfg.N c.inp.bufIn
  bufOut_wf : Memory.wf c.out.bufOut
  bufOut_within : Memory.within c.outOf.N c.out.bufOut
  vars_wf : Memory.wf c.vars

/-- What every reachable state has: every thread as above, the threads in canonical form with the present one not among the
parked, and the host's memory in canonical form. -/
structure State.Inv (s : State) : Prop where
  thread : s.toThread.Inv
  parked : ∀ c ∈ s.parked, c.2.Inv ∧ c.1 ≠ s.agent
  parked_wf : Memory.wf s.parked
  mem_wf : Memory.wf s.mem

/-- `k` steps from `s` in which no issue faulted, no agents raced and nothing was refused: the premise R187 gives claims
about a host program. -/
def SafeRun (k : Nat) (s : State) : Prop := ∃ t, Sys2Proof.core.run k s = .next t

end Sys2Proof.Machine
end

