-- ==== Sys2Proof/Certificates/Slice0/Obligations.lean ====
section
/-! DEFINITION. The statements for the provers, each from the rules of spec/ its docstring names. Ports, spans and bits are
written out here, so that a statement can be held against its rule without the model's own helpers. -/

open Sys2Proof Sys2Proof.Machine

/-- `Rev_S(v)` of 42_reverser_msb.md R155: the sum over `d < n` of `v[d] << (n - 1 - d)`. -/
def Sys2Proof.revBits (n v : Nat) : Nat :=
  ((List.range n).map (fun d => if v.testBit d then 2 ^ (n - 1 - d) else 0)).sum

/-- The command of the other order with the same word; BITCOPY is its own (30_encoding.md R75). -/
def Sys2Proof.mirrorOf : Instr → Instr
  | .getbLsb => .getbMsb
  | .setbLsb => .setbMsb
  | .getbufLsb boff => .getbufMsb boff
  | .setbufLsb boff => .setbufMsb boff
  | .getbMsb => .getbLsb
  | .setbMsb => .setbLsb
  | .getbufMsb boff => .getbufLsb boff
  | .setbufMsb boff => .setbufLsb boff
  | .bitcopy didx sidx => .bitcopy didx sidx

/-- The outputs of a command that raises `e`, as R185 lists them, with the codes of R180. -/
def Sys2Proof.errorOutputs (code : BitVec 2) (s : State) : Outputs :=
  { valueOut := 0, byteOut := s.inp.byteIn, bufOut := s.inp.bufIn, errCode := code }

/-- ILLEGAL_OP's condition on the command word (R181). -/
def Sys2Proof.IllegalWord (cfg : Config) (w : CmdWord) : Prop :=
  w.extractLsb' 0 3 = 0#3 ∨ w.extractLsb' 0 3 = 6#3 ∨ w.extractLsb' 0 3 = 7#3 ∨
    (w.extractLsb' 0 3 = 4#3 ∧ cfg.hasSetbuf = false)

/-- RSVD_FIELD's conditions on the command word, without the condition on its opcode (R182). -/
def Sys2Proof.ReservedWord (w : CmdWord) : Prop :=
  w.extractLsb' 3 5 ≠ 0#5 ∨ w.extractLsb' 11 1 ≠ 0#1 ∨ w.extractLsb' 15 1 ≠ 0#1 ∨
    ((w.extractLsb' 0 3 = 1#3 ∨ w.extractLsb' 0 3 = 2#3 ∨ w.extractLsb' 0 3 = 3#3 ∨ w.extractLsb' 0 3 = 4#3) ∧
      (w.extractLsb' 8 3 ≠ 0#3 ∨ w.extractLsb' 12 3 ≠ 0#3)) ∨
    ((w.extractLsb' 0 3 = 1#3 ∨ w.extractLsb' 0 3 = 2#3 ∨ w.extractLsb' 0 3 = 5#3) ∧ w.extractLsb' 16 16 ≠ 0#16)

/-- RANGE's condition on a decoded command (R183). -/
def Sys2Proof.OutOfRange (cfg : Config) : Instr → Prop
  | .getbLsb => 8 < cfg.P + cfg.S
  | .setbLsb => 8 < cfg.P + cfg.S
  | .getbufLsb boff => 8 * cfg.N < cfg.P + 8 * boff.toNat + cfg.S
  | .setbufLsb boff => 8 * cfg.N < cfg.P + 8 * boff.toNat + cfg.S
  | .getbMsb => 8 < cfg.P + cfg.S
  | .setbMsb => 8 < cfg.P + cfg.S
  | .getbufMsb boff => 8 * cfg.N < cfg.P + 8 * boff.toNat + cfg.S
  | .setbufMsb boff => 8 * cfg.N < cfg.P + 8 * boff.toNat + cfg.S
  | .bitcopy _ _ => False

/-- The next step from `s` is an issue, after which `rest` is what the host has still to do: an issue the host has asked for,
or, with nothing pending, the one that step makes (10_state.md R32; log 11). -/
abbrev Sys2Proof.IssuesNext (s : State) (rest : List HostAction) : Prop :=
  (s.pending = [] ∧ rest = []) ∨ s.pending = .issue :: rest

/-- The command reads the host's byte at address `x`: the byte or the source byte presented, a byte that holds a bit of the
field, or for SETBUF any byte of the buffer (20_memory.md R59). -/
def Sys2Proof.ReadsByte (s : State) (i : Instr) (x : Nat) : Prop :=
  match i with
  | .getbLsb => s.source.byte = some x
  | .setbLsb => s.source.byte = some x
  | .getbufLsb boff => ∃ a d, s.source.buf = some a ∧ d < s.cfg.S ∧ x = a + (s.cfg.P + 8 * boff.toNat + d) / 8
  | .setbufLsb _ => ∃ a k, s.source.buf = some a ∧ k < s.cfg.N ∧ x = a + k
  | .getbMsb => s.source.byte = some x
  | .setbMsb => s.source.byte = some x
  | .getbufMsb boff => ∃ a d, s.source.buf = some a ∧ d < s.cfg.S ∧ x = a + (s.cfg.P + 8 * boff.toNat + d) / 8
  | .setbufMsb _ => ∃ a k, s.source.buf = some a ∧ k < s.cfg.N ∧ x = a + k
  | .bitcopy _ _ => s.source.byte = some x ∨ s.source.src = some x

/-- The present thread's use of the bytes `[lo, hi)` races: another agent's recorded access shares a byte with it, and one of
the two writes back (R215; the record is log 13's). -/
def Sys2Proof.Races (s : State) (lo hi : Nat) (writes : Bool) : Prop :=
  ∃ b ∈ s.accesses, b.agent ≠ s.agent ∧ (∃ x, lo ≤ x ∧ x < hi ∧ b.lo ≤ x ∧ x < b.hi) ∧
    (writes = true ∨ b.writesBack = true)

/-! ## The nine commands: where each completes, what it leaves, where it raises its error, and its word -/

/-- GETB.LSB completes where P + S ≤ 8 and drives `(byte_in >> P) & Mask(S)`, else it raises RANGE (R122). -/
def Obligations.GetbLsbShiftsAndMasks : Prop :=
  ∀ s : State,
    (s.cfg.P + s.cfg.S ≤ 8 →
      exec .getbLsb s = .next { s with out :=
        { valueOut := (s.inp.byteIn.toNat >>> s.cfg.P) &&& (2 ^ s.cfg.S - 1)
          byteOut := s.inp.byteIn, bufOut := s.inp.bufIn, errCode := 0#2 } }) ∧
    (8 < s.cfg.P + s.cfg.S → exec .getbLsb s = .fault (.range (errorOutputs 3#2 s))) ∧
    encode .getbLsb = 0x00000001#32

/-- SETB.LSB completes where P + S ≤ 8: byte bit `P + d` becomes value bit `d` for `d < S`, the others stay; else it
raises RANGE (R123). -/
def Obligations.SetbLsbWritesTheSpan : Prop :=
  ∀ s : State,
    (s.cfg.P + s.cfg.S ≤ 8 →
      ∃ b : Byte,
        exec .setbLsb s = .next { s with out :=
          { valueOut := 0, byteOut := b, bufOut := s.inp.bufIn, errCode := 0#2 } } ∧
        b = (s.inp.byteIn &&& ~~~(BitVec.ofNat 8 ((2 ^ s.cfg.S - 1) <<< s.cfg.P))) |||
              BitVec.ofNat 8 ((s.inp.valueIn &&& (2 ^ s.cfg.S - 1)) <<< s.cfg.P) ∧
        ∀ j < 8, b.getLsbD j =
          if s.cfg.P ≤ j ∧ j < s.cfg.P + s.cfg.S then s.inp.valueIn.testBit (j - s.cfg.P)
          else s.inp.byteIn.getLsbD j) ∧
    (8 < s.cfg.P + s.cfg.S → exec .setbLsb s = .fault (.range (errorOutputs 3#2 s))) ∧
    encode .setbLsb = 0x00000002#32

/-- GETBUF.LSB completes where `P + 8*BOFF + S ≤ 8*N`: value bit `d` is stream bit `P + 8*BOFF + d` for `d < S` and 0
above; else it raises RANGE (R124). -/
def Obligations.GetbufLsbReadsTheSpan : Prop :=
  ∀ (s : State) (boff : BitVec 16),
    (s.cfg.P + 8 * boff.toNat + s.cfg.S ≤ 8 * s.cfg.N →
      ∃ v : Nat,
        exec (.getbufLsb boff) s = .next { s with out :=
          { valueOut := v, byteOut := s.inp.byteIn, bufOut := s.inp.bufIn, errCode := 0#2 } } ∧
        ∀ d, v.testBit d = (decide (d < s.cfg.S) && streamBit s.inp.bufIn (s.cfg.P + 8 * boff.toNat + d))) ∧
    (8 * s.cfg.N < s.cfg.P + 8 * boff.toNat + s.cfg.S →
      exec (.getbufLsb boff) s = .fault (.range (errorOutputs 3#2 s))) ∧
    encode (.getbufLsb boff) = (boff.setWidth 32 <<< 16) ||| 3#32

/-- SETBUF.LSB, where present and in range: stream bit `P + 8*BOFF + d` of `buf_out` is value bit `d`, every other bit
of the buffer is as in `buf_in`; out of range it raises RANGE, where absent ILLEGAL_OP (R125). -/
def Obligations.SetbufLsbWritesTheSpan : Prop :=
  ∀ (s : State) (boff : BitVec 16),
    (s.cfg.hasSetbuf = true → s.cfg.P + 8 * boff.toNat + s.cfg.S ≤ 8 * s.cfg.N →
      ∃ m : Memory,
        exec (.setbufLsb boff) s = .next { s with out :=
          { valueOut := 0, byteOut := s.inp.byteIn, bufOut := m, errCode := 0#2 } } ∧
        ∀ i, streamBit m i =
          if s.cfg.P + 8 * boff.toNat ≤ i ∧ i < s.cfg.P + 8 * boff.toNat + s.cfg.S
          then s.inp.valueIn.testBit (i - (s.cfg.P + 8 * boff.toNat)) else streamBit s.inp.bufIn i) ∧
    (s.cfg.hasSetbuf = true → 8 * s.cfg.N < s.cfg.P + 8 * boff.toNat + s.cfg.S →
      exec (.setbufLsb boff) s = .fault (.range (errorOutputs 3#2 s))) ∧
    (s.cfg.hasSetbuf = false → exec (.setbufLsb boff) s = .fault (.illegalOp (errorOutputs 1#2 s))) ∧
    encode (.setbufLsb boff) = (boff.setWidth 32 <<< 16) ||| 4#32

/-- GETB.MSB completes where P + S ≤ 8: value bit `d` is byte bit `P + S - 1 - d` for `d < S` and 0 above; else it raises
RANGE (R151). -/
def Obligations.GetbMsbReversesTheSpan : Prop :=
  ∀ s : State,
    (s.cfg.P + s.cfg.S ≤ 8 →
      ∃ v : Nat,
        exec .getbMsb s = .next { s with out :=
          { valueOut := v, byteOut := s.inp.byteIn, bufOut := s.inp.bufIn, errCode := 0#2 } } ∧
        ∀ d, v.testBit d = (decide (d < s.cfg.S) && s.inp.byteIn.getLsbD (s.cfg.P + s.cfg.S - 1 - d))) ∧
    (8 < s.cfg.P + s.cfg.S → exec .getbMsb s = .fault (.range (errorOutputs 3#2 s))) ∧
    encode .getbMsb = 0x00000001#32

/-- SETB.MSB completes where P + S ≤ 8: byte bit `P + S - 1 - p` becomes value bit `p` for `p < S`, the others stay; it is
the loop of single-bit copies R152 writes; else it raises RANGE (R152). -/
def Obligations.SetbMsbWritesTheSpanReversed : Prop :=
  ∀ s : State,
    (s.cfg.P + s.cfg.S ≤ 8 →
      ∃ b : Byte,
        exec .setbMsb s = .next { s with out :=
          { valueOut := 0, byteOut := b, bufOut := s.inp.bufIn, errCode := 0#2 } } ∧
        b = (List.range s.cfg.S).foldl (fun b p => bitCopy b (s.cfg.P + s.cfg.S - 1 - p)
              (BitVec.ofNat 8 (s.inp.valueIn / 2 ^ (8 * (p / 8)))) (p % 8)) s.inp.byteIn ∧
        (∀ p < s.cfg.S, b.getLsbD (s.cfg.P + s.cfg.S - 1 - p) = s.inp.valueIn.testBit p) ∧
        ∀ j < 8, ¬(s.cfg.P ≤ j ∧ j < s.cfg.P + s.cfg.S) → b.getLsbD j = s.inp.byteIn.getLsbD j) ∧
    (8 < s.cfg.P + s.cfg.S → exec .setbMsb s = .fault (.range (errorOutputs 3#2 s))) ∧
    encode .setbMsb = 0x00000002#32

/-- GETBUF.MSB completes where `end_bit = P + 8*BOFF + S ≤ 8*N`: value bit `d` is stream bit `end_bit - d - 1` for `d < S`
and 0 above; else it raises RANGE (R153). -/
def Obligations.GetbufMsbReversesTheSpan : Prop :=
  ∀ (s : State) (boff : BitVec 16),
    (s.cfg.P + 8 * boff.toNat + s.cfg.S ≤ 8 * s.cfg.N →
      ∃ v : Nat,
        exec (.getbufMsb boff) s = .next { s with out :=
          { valueOut := v, byteOut := s.inp.byteIn, bufOut := s.inp.bufIn, errCode := 0#2 } } ∧
        ∀ d, v.testBit d =
          (decide (d < s.cfg.S) && streamBit s.inp.bufIn (s.cfg.P + 8 * boff.toNat + s.cfg.S - d - 1))) ∧
    (8 * s.cfg.N < s.cfg.P + 8 * boff.toNat + s.cfg.S →
      exec (.getbufMsb boff) s = .fault (.range (errorOutputs 3#2 s))) ∧
    encode (.getbufMsb boff) = (boff.setWidth 32 <<< 16) ||| 3#32

/-- SETBUF.MSB, where present and in range: stream bit `end_bit - d - 1` of `buf_out` is value bit `d`, every other bit of
the buffer is as in `buf_in`; out of range it raises RANGE, where absent ILLEGAL_OP (R154). -/
def Obligations.SetbufMsbWritesTheSpanReversed : Prop :=
  ∀ (s : State) (boff : BitVec 16),
    (s.cfg.hasSetbuf = true → s.cfg.P + 8 * boff.toNat + s.cfg.S ≤ 8 * s.cfg.N →
      ∃ m : Memory,
        exec (.setbufMsb boff) s = .next { s with out :=
          { valueOut := 0, byteOut := s.inp.byteIn, bufOut := m, errCode := 0#2 } } ∧
        ∀ i, streamBit m i =
          if s.cfg.P + 8 * boff.toNat ≤ i ∧ i < s.cfg.P + 8 * boff.toNat + s.cfg.S
          then s.inp.valueIn.testBit (s.cfg.P + 8 * boff.toNat + s.cfg.S - 1 - i) else streamBit s.inp.bufIn i) ∧
    (s.cfg.hasSetbuf = true → 8 * s.cfg.N < s.cfg.P + 8 * boff.toNat + s.cfg.S →
      exec (.setbufMsb boff) s = .fault (.range (errorOutputs 3#2 s))) ∧
    (s.cfg.hasSetbuf = false → exec (.setbufMsb boff) s = .fault (.illegalOp (errorOutputs 1#2 s))) ∧
    encode (.setbufMsb boff) = (boff.setWidth 32 <<< 16) ||| 4#32

/-- BITCOPY completes on every instance and every input: `byte_out` is `byte_in` with bit DIDX replaced by bit SIDX of
`src_in` (R101). -/
def Obligations.BitcopyReplacesOneBit : Prop :=
  ∀ (s : State) (didx sidx : BitVec 3),
    ∃ b : Byte,
      exec (.bitcopy didx sidx) s = .next { s with out :=
        { valueOut := 0, byteOut := b, bufOut := s.inp.bufIn, errCode := 0#2 } } ∧
      ∀ j < 8, b.getLsbD j = if j = didx.toNat then s.inp.srcIn.getLsbD sidx.toNat else s.inp.byteIn.getLsbD j

/-! ## Laws of the single-bit copy -/

/-- BitCopy changes bit `di` alone, to `src[si]`, and is the only byte that does so (R102). -/
def Obligations.BitCopyDefinedByTwoFacts : Prop :=
  ∀ (dst src : Byte) (di si : Nat), di < 8 → si < 8 → ∀ b : Byte,
    b = bitCopy dst di src si ↔
      (∀ j < 8, j ≠ di → b.getLsbD j = dst.getLsbD j) ∧ b.getLsbD di = src.getLsbD si

/-- Copies to distinct bits commute, and the second copy to one bit overrides the first (R103). -/
def Obligations.BitCopyComposes : Prop :=
  ∀ (x a b : Byte) (d1 d2 s1 s2 : Nat), d1 < 8 → d2 < 8 → s1 < 8 → s2 < 8 →
    (d1 ≠ d2 → bitCopy (bitCopy x d1 a s1) d2 b s2 = bitCopy (bitCopy x d2 b s2) d1 a s1) ∧
    bitCopy (bitCopy x d1 a s1) d1 b s2 = bitCopy x d1 b s2

/-- Copying a bit onto itself changes nothing (R104). -/
def Obligations.BitCopyOntoItself : Prop :=
  ∀ (x : Byte) (i : Nat), i < 8 → bitCopy x i x i = x

/-! ## Laws of the codecs -/

/-- The masked byte forms equal their bit-by-bit forms (R126). -/
def Obligations.LsbByteFormsAreBitByBit : Prop :=
  ∀ s : State, s.cfg.P + s.cfg.S ≤ 8 →
    (∃ t, exec .getbLsb s = .next t ∧
      ∀ d < s.cfg.S, t.out.valueOut.testBit d = s.inp.byteIn.getLsbD (s.cfg.P + d)) ∧
    (∃ t, exec .setbLsb s = .next t ∧
      t.out.byteOut = (List.range s.cfg.S).foldl (fun b d => bitCopy b (s.cfg.P + d)
        (BitVec.ofNat 8 (s.inp.valueIn / 2 ^ (8 * (d / 8)))) (d % 8)) s.inp.byteIn)

/-- On an instance whose byte forms have a meaning, the LSB byte forms agree with the buffer forms at offset 0 on byte 0
(R127). -/
def Obligations.LsbByteAndBufferFormsAgree : Prop :=
  ∀ s : State, s.cfg.P + s.cfg.S ≤ 8 → byteAt s.inp.bufIn 0 = s.inp.byteIn →
    (∃ t u, exec .getbLsb s = .next t ∧ exec (.getbufLsb 0#16) s = .next u ∧ t.out.valueOut = u.out.valueOut) ∧
    (s.cfg.hasSetbuf = true →
      ∃ t u, exec .setbLsb s = .next t ∧ exec (.setbufLsb 0#16) s = .next u ∧ byteAt u.out.bufOut 0 = t.out.byteOut)

/-- The same of the MSB forms (R158, first part). -/
def Obligations.MsbByteAndBufferFormsAgree : Prop :=
  ∀ s : State, s.cfg.P + s.cfg.S ≤ 8 → byteAt s.inp.bufIn 0 = s.inp.byteIn →
    (∃ t u, exec .getbMsb s = .next t ∧ exec (.getbufMsb 0#16) s = .next u ∧ t.out.valueOut = u.out.valueOut) ∧
    (s.cfg.hasSetbuf = true →
      ∃ t u, exec .setbMsb s = .next t ∧ exec (.setbufMsb 0#16) s = .next u ∧ byteAt u.out.bufOut 0 = t.out.byteOut)

/-- LSB round trip and non-interference, byte and buffer form (R128): what SETB or SETBUF wrote, GETB or GETBUF reads back
from the byte or buffer driven, and no bit outside the span changes. -/
def Obligations.LsbRoundTrip : Prop :=
  ∀ s : State, s.inp.valueIn < 2 ^ s.cfg.S →
    (s.cfg.P + s.cfg.S ≤ 8 →
      ∃ t, exec .setbLsb s = .next t ∧
        (∀ j < 8, ¬(s.cfg.P ≤ j ∧ j < s.cfg.P + s.cfg.S) → t.out.byteOut.getLsbD j = s.inp.byteIn.getLsbD j) ∧
        ∀ s' : State, s'.cfg = s.cfg → s'.inp.byteIn = t.out.byteOut →
          ∃ u, exec .getbLsb s' = .next u ∧ u.out.valueOut = s.inp.valueIn) ∧
    (∀ boff : BitVec 16, s.cfg.hasSetbuf = true → s.cfg.P + 8 * boff.toNat + s.cfg.S ≤ 8 * s.cfg.N →
      ∃ t, exec (.setbufLsb boff) s = .next t ∧
        (∀ i, ¬(s.cfg.P + 8 * boff.toNat ≤ i ∧ i < s.cfg.P + 8 * boff.toNat + s.cfg.S) →
          streamBit t.out.bufOut i = streamBit s.inp.bufIn i) ∧
        ∀ s' : State, s'.cfg = s.cfg → s'.inp.bufIn = t.out.bufOut →
          ∃ u, exec (.getbufLsb boff) s' = .next u ∧ u.out.valueOut = s.inp.valueIn)

/-- MSB round trip and non-interference, byte and buffer form (R158 after R128). -/
def Obligations.MsbRoundTrip : Prop :=
  ∀ s : State, s.inp.valueIn < 2 ^ s.cfg.S →
    (s.cfg.P + s.cfg.S ≤ 8 →
      ∃ t, exec .setbMsb s = .next t ∧
        (∀ j < 8, ¬(s.cfg.P ≤ j ∧ j < s.cfg.P + s.cfg.S) → t.out.byteOut.getLsbD j = s.inp.byteIn.getLsbD j) ∧
        ∀ s' : State, s'.cfg = s.cfg → s'.inp.byteIn = t.out.byteOut →
          ∃ u, exec .getbMsb s' = .next u ∧ u.out.valueOut = s.inp.valueIn) ∧
    (∀ boff : BitVec 16, s.cfg.hasSetbuf = true → s.cfg.P + 8 * boff.toNat + s.cfg.S ≤ 8 * s.cfg.N →
      ∃ t, exec (.setbufMsb boff) s = .next t ∧
        (∀ i, ¬(s.cfg.P + 8 * boff.toNat ≤ i ∧ i < s.cfg.P + 8 * boff.toNat + s.cfg.S) →
          streamBit t.out.bufOut i = streamBit s.inp.bufIn i) ∧
        ∀ s' : State, s'.cfg = s.cfg → s'.inp.bufIn = t.out.bufOut →
          ∃ u, exec (.getbufMsb boff) s' = .next u ∧ u.out.valueOut = s.inp.valueIn)

/-- LSB reverse round trip (R129): encoding the value just decoded leaves the byte, and every byte of the buffer, as it
was. -/
def Obligations.LsbReverseRoundTrip : Prop :=
  ∀ s : State,
    (s.cfg.P + s.cfg.S ≤ 8 →
      ∃ t, exec .getbLsb s = .next t ∧
        ∀ s' : State, s'.cfg = s.cfg → s'.inp.byteIn = s.inp.byteIn → s'.inp.valueIn = t.out.valueOut →
          ∃ u, exec .setbLsb s' = .next u ∧ u.out.byteOut = s.inp.byteIn) ∧
    (∀ boff : BitVec 16, s.cfg.hasSetbuf = true → s.cfg.P + 8 * boff.toNat + s.cfg.S ≤ 8 * s.cfg.N →
      ∃ t, exec (.getbufLsb boff) s = .next t ∧
        ∀ s' : State, s'.cfg = s.cfg → s'.inp.bufIn = s.inp.bufIn → s'.inp.valueIn = t.out.valueOut →
          ∃ u, exec (.setbufLsb boff) s' = .next u ∧ ∀ k, byteAt u.out.bufOut k = byteAt s.inp.bufIn k)

/-- MSB reverse round trip (R158 after R129). -/
def Obligations.MsbReverseRoundTrip : Prop :=
  ∀ s : State,
    (s.cfg.P + s.cfg.S ≤ 8 →
      ∃ t, exec .getbMsb s = .next t ∧
        ∀ s' : State, s'.cfg = s.cfg → s'.inp.byteIn = s.inp.byteIn → s'.inp.valueIn = t.out.valueOut →
          ∃ u, exec .setbMsb s' = .next u ∧ u.out.byteOut = s.inp.byteIn) ∧
    (∀ boff : BitVec 16, s.cfg.hasSetbuf = true → s.cfg.P + 8 * boff.toNat + s.cfg.S ≤ 8 * s.cfg.N →
      ∃ t, exec (.getbufMsb boff) s = .next t ∧
        ∀ s' : State, s'.cfg = s.cfg → s'.inp.bufIn = s.inp.bufIn → s'.inp.valueIn = t.out.valueOut →
          ∃ u, exec (.setbufMsb boff) s' = .next u ∧ ∀ k, byteAt u.out.bufOut k = byteAt s.inp.bufIn k)

/-- Mirror law (R155): on configurations that differ in ORDER alone and the same inputs, the MSB result is the LSB result
reversed within S bits, writing under MSB is writing the reversed value under LSB, and both raise the same faults. `s` and
`s'` are the two instances' states; `r` is the LSB state with the reversed value on `value_in`. -/
def Obligations.MirrorLaw : Prop :=
  ∀ (s s' r : State) (boff : BitVec 16),
    s.cfg.order = .lsb → s'.cfg.toParams = { s.cfg.toParams with order := .msb } → s'.inp = s.inp →
    r.cfg = s.cfg → r.inp = { s.inp with valueIn := revBits s.cfg.S (s.inp.valueIn &&& (2 ^ s.cfg.S - 1)) } →
    (∀ t, exec .getbLsb s = .next t →
      ∃ t', exec .getbMsb s' = .next t' ∧ t'.out.valueOut = revBits s.cfg.S t.out.valueOut) ∧
    (∀ t, exec (.getbufLsb boff) s = .next t →
      ∃ t', exec (.getbufMsb boff) s' = .next t' ∧ t'.out.valueOut = revBits s.cfg.S t.out.valueOut) ∧
    (∀ t, exec .setbLsb r = .next t → ∃ t', exec .setbMsb s' = .next t' ∧ t'.out.byteOut = t.out.byteOut) ∧
    (∀ t, exec (.setbufLsb boff) r = .next t →
      ∃ t', exec (.setbufMsb boff) s' = .next t' ∧ ∀ k, byteAt t'.out.bufOut k = byteAt t.out.bufOut k) ∧
    (∀ f, exec .getbLsb s = .fault f ↔ exec .getbMsb s' = .fault f) ∧
    (∀ f, exec (.getbufLsb boff) s = .fault f ↔ exec (.getbufMsb boff) s' = .fault f) ∧
    (∀ f, exec .setbLsb s = .fault f ↔ exec .setbMsb s' = .fault f) ∧
    (∀ f, exec (.setbufLsb boff) s = .fault f ↔ exec (.setbufMsb boff) s' = .fault f)

/-- Order symmetry at width 1 (R156): on two instances that differ in ORDER alone and on the same inputs, each command of the
one order gives the outputs, or the fault, of the same command of the other. -/
def Obligations.WidthOneOrdersAgree : Prop :=
  ∀ (s s' : State) (i : Instr), s.cfg.order = .lsb → s'.cfg.toParams = { s.cfg.toParams with order := .msb } →
    s'.inp = s.inp → s.cfg.S = 1 → i.order? = some .lsb →
    (∀ t, exec i s = .next t → ∃ t', exec (mirrorOf i) s' = .next t' ∧ t'.out = t.out) ∧
    (∀ t', exec (mirrorOf i) s' = .next t' → ∃ t, exec i s = .next t ∧ t.out = t'.out) ∧
    (∀ f, exec i s = .fault f ↔ exec (mirrorOf i) s' = .fault f)

/-- Order antisymmetry (R157): with P = 0 and S = 8, GETB.LSB gives the byte and GETB.MSB the bit-reversed byte. -/
def Obligations.WholeByteOrdersReverse : Prop :=
  ∀ s : State, s.cfg.P = 0 → s.cfg.S = 8 →
    (∃ t, exec .getbLsb s = .next t ∧ t.out.valueOut = s.inp.byteIn.toNat) ∧
    (∃ t, exec .getbMsb s = .next t ∧ t.out.valueOut = s.inp.byteIn.reverse.toNat)

/-- Bits above the field are zero on decode and ignored on encode (R30). -/
def Obligations.BitsAboveTheFieldIgnored : Prop :=
  (∀ (s t : State) (i : Instr) (boff : BitVec 16),
    i = .getbLsb ∨ i = .getbMsb ∨ i = .getbufLsb boff ∨ i = .getbufMsb boff → exec i s = .next t →
      ∀ d, s.cfg.S ≤ d → t.out.valueOut.testBit d = false) ∧
  (∀ (s s' t t' : State) (i : Instr) (boff : BitVec 16),
    i = .setbLsb ∨ i = .setbMsb ∨ i = .setbufLsb boff ∨ i = .setbufMsb boff →
    s'.cfg = s.cfg → s'.inp = { s.inp with valueIn := s'.inp.valueIn } →
    s'.inp.valueIn % 2 ^ s.cfg.S = s.inp.valueIn % 2 ^ s.cfg.S →
    exec i s = .next t → exec i s' = .next t' → t'.out = t.out)

/-- A field of whole bytes moves as the byte-wide accesses MemRead and MemWrite would (R57, with R16's notation): with
P = 0 and S = 8n. -/
def Obligations.WholeByteFieldsMoveBytewise : Prop :=
  ∀ (s : State) (boff : BitVec 16) (n : Nat), s.cfg.P = 0 → s.cfg.S = 8 * n →
    8 * boff.toNat + 8 * n ≤ 8 * s.cfg.N →
    (∃ t, exec (.getbufLsb boff) s = .next t ∧ t.out.valueOut = memRead s.inp.bufIn boff.toNat n) ∧
    (s.cfg.hasSetbuf = true →
      ∃ t, exec (.setbufLsb boff) s = .next t ∧
        ∀ k, byteAt t.out.bufOut k = byteAt (memWrite s.inp.bufIn boff.toNat s.inp.valueIn n) k)

/-! ## Encoding -/

/-- Every command of an instance decodes from its word (R76, R80). -/
def Obligations.DecodeOfEncode : Prop :=
  ∀ (cfg : Config) (i : Instr), i.WellFormed cfg → decode cfg (encode i) = .ok i

/-- A word decodes to a command of the instance alone, and only the command's own word does (R76, R78). -/
def Obligations.EncodeOfDecode : Prop :=
  ∀ (cfg : Config) (w : CmdWord) (i : Instr), decode cfg w = .ok i → i.WellFormed cfg ∧ encode i = w

/-- Decoding is total and rejects exactly R181's words as ILLEGAL_OP and, of the rest, exactly R182's as RSVD_FIELD;
RANGE is never decode's (R76, R77). -/
def Obligations.DecodeRejectsExactly : Prop :=
  ∀ (cfg : Config) (w : CmdWord),
    (decode cfg w = .error .illegalOp ↔ IllegalWord cfg w) ∧
    (decode cfg w = .error .rsvdField ↔ ¬IllegalWord cfg w ∧ ReservedWord w) ∧
    ((∃ i, decode cfg w = .ok i) ↔ ¬IllegalWord cfg w ∧ ¬ReservedWord w)

/-- One word means the same operation of the instance's ORDER, and BITCOPY is the same under both (R75). -/
def Obligations.OrderPicksTheCodec : Prop :=
  ∀ (cfg cfg' : Config) (w : CmdWord),
    cfg.order = .lsb → cfg'.toParams = { cfg.toParams with order := .msb } →
    decode cfg' w = (decode cfg w).map mirrorOf

/-- The words of R80's table, each row for every operand, and the commands they decode to on the instance at reset (its order
is the model's choice, log 1). -/
def Obligations.WordsOfEachForm : Prop :=
  assemble .getb = 0x00000001#32 ∧ assemble .setb = 0x00000002#32 ∧
  assemble (.getbuf none) = 0x00000003#32 ∧ assemble (.getbuf (some 0#16)) = 0x00000003#32 ∧
  assemble (.getbuf (some 1#16)) = 0x00010003#32 ∧
  assemble (.setbuf none) = 0x00000004#32 ∧ assemble (.setbuf (some 0#16)) = 0x00000004#32 ∧
  assemble (.bitcopy 0#3 0#3) = 0x00000005#32 ∧ assemble (.bitcopy 7#3 3#3) = 0x00003705#32 ∧
  (∀ k : BitVec 16, assemble (.getbuf (some k)) = (k.setWidth 32 <<< 16) ||| 0x3#32) ∧
  (∀ k : BitVec 16, assemble (.setbuf (some k)) = (k.setWidth 32 <<< 16) ||| 0x4#32) ∧
  (∀ d s : BitVec 3, assemble (.bitcopy d s) = (s.setWidth 32 <<< 12) ||| (d.setWidth 32 <<< 8) ||| 0x5#32) ∧
  decode Config.atReset 0x00000001#32 = .ok .getbLsb ∧ decode Config.atReset 0x00000002#32 = .ok .setbLsb ∧
  decode Config.atReset 0x00000003#32 = .ok (.getbufLsb 0#16) ∧
  decode Config.atReset 0x00010003#32 = .ok (.getbufLsb 1#16) ∧
  decode Config.atReset 0x00000004#32 = .ok (.setbufLsb 0#16) ∧
  decode Config.atReset 0x00010004#32 = .ok (.setbufLsb 1#16) ∧
  decode Config.atReset 0x00000005#32 = .ok (.bitcopy 0#3 0#3) ∧
  decode Config.atReset 0x00003705#32 = .ok (.bitcopy 7#3 3#3) ∧
  (∀ k : BitVec 16, decode Config.atReset ((k.setWidth 32 <<< 16) ||| 0x3#32) = .ok (.getbufLsb k)) ∧
  (∀ k : BitVec 16, decode Config.atReset ((k.setWidth 32 <<< 16) ||| 0x4#32) = .ok (.setbufLsb k)) ∧
  (∀ d s : BitVec 3,
    decode Config.atReset ((s.setWidth 32 <<< 12) ||| (d.setWidth 32 <<< 8) ||| 0x5#32) = .ok (.bitcopy d s)) ∧
  decode Config.atReset 0x00008005#32 = .error .rsvdField ∧ decode Config.atReset 0x00000006#32 = .error .illegalOp

/-! ## Issues, errors and state -/

/-- Where the next step is an issue, asked for by the host or not, and the command word decodes to `i`, the step is `exec i` on
the inputs sampled: it faults as `exec` faults, and, where no other agent's access is outstanding, it goes on to `exec`'s
state. Around `exec` the step takes the host's issue off, notes whose outputs these are, and records in `accesses` (the model's
own field, log 13) exactly what the command read. -/
def Obligations.StepRunsTheDecodedCommand : Prop :=
  ∀ (s : State) (rest : List HostAction) (i : Instr), IssuesNext s rest → decode s.cfg s.inp.cmd = .ok i →
    (∀ f, exec i (sample s) = .fault f → step s = .fault f) ∧
    (∀ t, exec i (sample s) = .next t → (∀ a ∈ s.accesses, a.agent = s.agent) →
      ∃ as, step s = .next { t with outOf := s.cfg, pending := rest, accesses := as } ∧
        ∀ a, a ∈ as ↔ a ∈ s.accesses ∨ a ∈ accessesOf s i)

/-- One issue reports one code, the first that applies of ILLEGAL_OP, RSVD_FIELD and RANGE, as a fault of the step, and drives
the outputs of a fault, writing nothing (R184, R185); `sample s` holds the inputs at the issue. -/
def Obligations.ErrorsByPriority : Prop :=
  ∀ (s : State) (rest : List HostAction), IssuesNext s rest →
    (IllegalWord s.cfg s.inp.cmd → step s = .fault (.illegalOp (errorOutputs 1#2 (sample s)))) ∧
    (¬IllegalWord s.cfg s.inp.cmd → ReservedWord s.inp.cmd →
      step s = .fault (.rsvdField (errorOutputs 2#2 (sample s)))) ∧
    (∀ i, decode s.cfg s.inp.cmd = .ok i → OutOfRange s.cfg i → step s = .fault (.range (errorOutputs 3#2 (sample s))))

/-- An all-zero command word is ILLEGAL_OP on every instance and performs no operation (R211). -/
def Obligations.AllZeroWordDoesNothing : Prop :=
  ∀ (s : State) (rest : List HostAction), IssuesNext s rest → s.inp.cmd = 0#32 → step s = .fault (.illegalOp (errorOutputs 1#2 (sample s)))

/-- Every error of R180 that an issue reports writes nothing: `value_out` 0, `byte_out` = `byte_in`, `buf_out` = `buf_in`,
`err_code` its own (R185). An issue's only other fault is a race, which has no outputs: another agent's write-back is on record
(log 13). -/
def Obligations.FaultWritesNothing : Prop :=
  ∀ (s : State) (rest : List HostAction) (f : Fault), IssuesNext s rest → step s = .fault f →
    (f = .race ∧ ∃ a ∈ s.accesses, a.agent ≠ s.agent ∧ a.writesBack = true) ∨
    ∃ out, (f = .illegalOp out ∧ out = errorOutputs 1#2 (sample s)) ∨
      (f = .rsvdField out ∧ out = errorOutputs 2#2 (sample s)) ∨ (f = .range out ∧ out = errorOutputs 3#2 (sample s))

/-- A host that reads `err_code` on the issue and goes on after an error (`stepReading`): the code and R185's outputs are
there to read, and nothing else has changed (R189, R190). Where the step completes, it is the same step. That a host may go on
so is the model's own reading (log 6); the step itself is a fault (R187). -/
def Obligations.ErrorsLeaveNoState : Prop :=
  ∀ (s : State) (rest : List HostAction), s.pending = .issue :: rest →
    (IllegalWord s.cfg s.inp.cmd →
      stepReading s = .next { s with out := errorOutputs 1#2 (sample s), outOf := s.cfg, pending := rest }) ∧
    (¬IllegalWord s.cfg s.inp.cmd → ReservedWord s.inp.cmd →
      stepReading s = .next { s with out := errorOutputs 2#2 (sample s), outOf := s.cfg, pending := rest }) ∧
    (∀ i, decode s.cfg s.inp.cmd = .ok i → OutOfRange s.cfg i →
      stepReading s = .next { s with out := errorOutputs 3#2 (sample s), outOf := s.cfg, pending := rest }) ∧
    (∀ t, step s = .next t → stepReading s = .next t)

/-- Every issue ends: in the command's next state, or in an error it reports; it is never refused (R216). -/
def Obligations.EveryIssueEnds : Prop :=
  ∀ (s : State) (rest : List HostAction), IssuesNext s rest → (∃ t, step s = .next t) ∨ (∃ f, step s = .fault f)

/-- The outputs of an issue are a function of the configuration and the inputs at it, and of nothing else: not of earlier
outputs nor of what the host did before (R27, R20). -/
def Obligations.OutputsFollowInputsAlone : Prop :=
  (∀ s s' : State, s.cfg = s'.cfg → s.inp = s'.inp → respond s = respond s') ∧
  (∀ (s t : State) (rest : List HostAction), IssuesNext s rest → step s = .next t →
    t.inp = (sample s).inp ∧ t.out = respond (sample s)) ∧
  (∀ (s : State) (rest : List HostAction) (f : Fault) (out : Outputs), IssuesNext s rest →
    step s = .fault f →
    (f = .illegalOp out ∨ f = .rsvdField out ∨ f = .range out) → out = respond (sample s))

/-- Frame of every command, and the outputs it does not drive (R26, R74): configuration, inputs, the host's memory and
variables, the threads and the model's own fields stay; `value_out` is 0 unless the command decodes, `byte_out` is `byte_in`
unless it is SETB or BITCOPY, `buf_out` is `buf_in` unless it is SETBUF, and `err_code` is 0. -/
def Obligations.CommandsDriveOnlyTheirOutput : Prop :=
  ∀ (i : Instr) (s t : State), exec i s = .next t →
    t.cfg = s.cfg ∧ t.inp = s.inp ∧ t.source = s.source ∧ t.outOf = s.outOf ∧ t.vars = s.vars ∧ t.agent = s.agent ∧
    t.parked = s.parked ∧ t.pending = s.pending ∧ t.accesses = s.accesses ∧
    t.mem = s.mem ∧ (∀ a, hostByte t.mem a = hostByte s.mem a) ∧ t.out.errCode = 0#2 ∧
    ((∀ boff, i ≠ .getbLsb ∧ i ≠ .getbMsb ∧ i ≠ .getbufLsb boff ∧ i ≠ .getbufMsb boff) → t.out.valueOut = 0) ∧
    ((∀ didx sidx, i ≠ .setbLsb ∧ i ≠ .setbMsb ∧ i ≠ .bitcopy didx sidx) → t.out.byteOut = s.inp.byteIn) ∧
    ((∀ boff, i ≠ .setbufLsb boff ∧ i ≠ .setbufMsb boff) →
      t.out.bufOut = s.inp.bufIn ∧ ∀ k, byteAt t.out.bufOut k = byteAt s.inp.bufIn k)

/-- Commands are idempotent: issued again on the same inputs they give the same outputs (R59). -/
def Obligations.CommandsAreIdempotent : Prop :=
  ∀ (i : Instr) (s t : State), exec i s = .next t → exec i t = .next t

/-- No step writes a configuration (R24): only the host's turning to another instance, or to another of its threads, changes
which one is addressed. -/
def Obligations.ConfigurationIsNeverWritten : Prop :=
  ∀ s t : State, step s = .next t →
    (∀ p, s.pending.head? ≠ some (.select p)) → (∀ n, s.pending.head? ≠ some (.turn n)) → t.cfg = s.cfg

/-- For every thread: value ports stay within the W bits, and buffer ports in canonical form within the N bytes, of the
instance they belong to; the host's memory, variables and threads stay in canonical form; whatever the step. -/
def Obligations.StepKeepsPortsWithinWidth : Prop :=
  ∀ s t : State, s.Inv → step s = .next t → t.Inv

/-- The state at reset has its ports within their widths, whatever the free launch values are. -/
def Obligations.ResetPortsWithinWidth : Prop := State.reset.Inv

/-- The outputs at reset are the block's response to the inputs at reset (R210), and the host has written and presented
nothing (R211). The reset inputs are the model's choice (logs 1 to 5). -/
def Obligations.ResetOutputsFollowInputs : Prop :=
  State.reset.out = respond State.reset ∧ sample State.reset = State.reset ∧ State.reset.pending = [] ∧
    State.reset.accesses = [] ∧ State.reset.inp.bufIn = [] ∧ State.reset.mem = [] ∧ State.reset.vars = [] ∧
    State.reset.parked = []

/-! ## The host's side -/

/-- Elaboration accepts exactly the legal configurations, and the instance has the configuration asked for (R12). -/
def Obligations.ElaborationAcceptsExactlyLegal : Prop :=
  ∀ p : Params,
    ((∃ cfg, elaborate p = .ok cfg ∧ cfg.toParams = p) ↔
      1 ≤ p.W ∧ 1 ≤ p.S ∧ p.S ≤ p.W ∧ 1 ≤ p.N ∧ p.N ≤ 65536 ∧ p.P + p.S ≤ 8 * p.N) ∧
    (elaborate p = .error .valueWidthZero ↔ p.W = 0) ∧
    (elaborate p = .error .sizeZero ↔ p.W ≠ 0 ∧ p.S = 0) ∧
    (elaborate p = .error .sizeExceedsValue ↔ p.W ≠ 0 ∧ p.S ≠ 0 ∧ p.W < p.S) ∧
    (elaborate p = .error .bufferLength ↔ 1 ≤ p.S ∧ p.S ≤ p.W ∧ (p.N = 0 ∨ 65536 < p.N)) ∧
    (elaborate p = .error .fieldExceedsBuffer ↔
      1 ≤ p.S ∧ p.S ≤ p.W ∧ 1 ≤ p.N ∧ p.N ≤ 65536 ∧ 8 * p.N < p.P + p.S)

/-- Turning to a legal configuration addresses that instance; an illegal one has no instance and is refused by name (R186).
The host's data and what it sampled stay whole (R192: instances share no state). What the ports carry until they are driven
is the model's choice (log 12) and not stated here. -/
def Obligations.IllegalInstancesAreRefused : Prop :=
  ∀ (s : State) (p : Params) (rest : List HostAction), s.pending = .select p :: rest →
    (p.Legal → ∃ t, step s = .next t ∧ t.cfg.toParams = p ∧ t.pending = rest ∧ t.mem = s.mem ∧ t.vars = s.vars ∧
      t.out = s.out ∧ t.outOf = s.outOf ∧ t.source = s.source ∧ t.parked = s.parked) ∧
    (¬p.Legal → ∃ e, elaborate p = .error e ∧ step s = .refused (.illegalConfig e))

/-- A buffer of exactly N bytes is driven with byte k on bits 8k to 8k+7, as the stream byte 0 first and least significant
bit first (R50, R51, R212). Another length is refused, which is the model's reading of R212 (log 14). -/
def Obligations.PresentedBufferIsTheStream : Prop :=
  ∀ (s : State) (bs : List Byte) (rest : List HostAction), s.pending = .driveBuf bs :: rest →
    (bs.length = s.cfg.N →
      ∃ m, step s = .next
          { s with inp := { s.inp with bufIn := m }, source := { s.source with buf := none }, pending := rest } ∧
        (∀ k (h : k < bs.length), byteAt m k = bs[k]) ∧
        ∀ i (h : i / 8 < bs.length), streamBit m i = (bs[i / 8]).getLsbD (i % 8)) ∧
    (bs.length ≠ s.cfg.N → step s = .refused .bufferSize)

/-- Driving an input with data of no host object changes that input alone, and a value port keeps its low W bits (R25,
R16). -/
def Obligations.DrivingSetsOneInput : Prop :=
  ∀ (s : State) (rest : List HostAction) (w : CmdWord) (b : Byte) (v : Nat),
    (s.pending = .driveCmd w :: rest → step s = .next { s with inp := { s.inp with cmd := w }, pending := rest }) ∧
    (s.pending = .driveByte b :: rest → step s = .next
      { s with inp := { s.inp with byteIn := b }, source := { s.source with byte := none }, pending := rest }) ∧
    (s.pending = .driveSrc b :: rest → step s = .next
      { s with inp := { s.inp with srcIn := b }, source := { s.source with src := none }, pending := rest }) ∧
    (s.pending = .driveValue v :: rest → step s = .next
      { s with
        inp := { s.inp with valueIn := v % 2 ^ s.cfg.W }, source := { s.source with value := none }, pending := rest })

/-- Results are in the host's memory after the host's store, a step of its own, and not after the issue (R28, R29). Where no
other agent's access is outstanding the store happens: it sets the bytes it stores to and no other byte, and its write-back
is recorded (the model's own field, log 13). -/
def Obligations.WriteBackIsAStepOfTheHost : Prop :=
  (∀ (s t : State) (rest : List HostAction), IssuesNext s rest → step s = .next t → t.mem = s.mem) ∧
  (∀ (s : State) (a : Nat) (rest : List HostAction), (∀ b ∈ s.accesses, b.agent = s.agent) →
    (s.pending = .storeByte a :: rest →
      ∃ m as, step s = .next { s with mem := m, pending := rest, accesses := as } ∧
        (∀ x, hostByte m x = if x = a then s.out.byteOut else hostByte s.mem x) ∧
        ∀ b, b ∈ as ↔ b ∈ s.accesses ∨ b = { agent := s.agent, lo := a, hi := a + 1, writesBack := true }) ∧
    (s.pending = .storeBuf a :: rest →
      ∃ m as, step s = .next { s with mem := m, pending := rest, accesses := as } ∧
        (∀ x, hostByte m x =
          if a ≤ x ∧ x < a + s.outOf.N then byteAt s.out.bufOut (x - a) else hostByte s.mem x) ∧
        ∀ b, b ∈ as ↔
          b ∈ s.accesses ∨ b = { agent := s.agent, lo := a, hi := a + s.outOf.N, writesBack := true }))

/-- Two SETBs of disjoint fields of one byte, of either order, from one or two instances (R214). `t` is the first result.
Chained (`t'`, issued on it), the second result keeps the first's field and holds its own; issued on the old byte (`u`), it
holds its own field and has lost the first's. -/
def Obligations.ChainedByteWritesKeepBothFields : Prop :=
  ∀ (s s' r t t' u : State) (i j : Instr), i = .setbLsb ∨ i = .setbMsb → j = .setbLsb ∨ j = .setbMsb →
    s.cfg.P + s.cfg.S ≤ s'.cfg.P ∨ s'.cfg.P + s'.cfg.S ≤ s.cfg.P →
    exec i s = .next t →
    s'.inp.byteIn = t.out.byteOut → exec j s' = .next t' →
    r.cfg = s'.cfg → r.inp.valueIn = s'.inp.valueIn → r.inp.byteIn = s.inp.byteIn → exec j r = .next u →
    (∀ n, s.cfg.P ≤ n → n < s.cfg.P + s.cfg.S →
      t'.out.byteOut.getLsbD n = t.out.byteOut.getLsbD n ∧ u.out.byteOut.getLsbD n = s.inp.byteIn.getLsbD n) ∧
    (∀ n, s'.cfg.P ≤ n → n < s'.cfg.P + s'.cfg.S → t'.out.byteOut.getLsbD n = u.out.byteOut.getLsbD n)

/-- The same of two SETBUFs of disjoint spans of one buffer, of either order (R214). -/
def Obligations.ChainedBufferWritesKeepBothFields : Prop :=
  ∀ (s s' r t t' u : State) (k k' : BitVec 16) (i j : Instr),
    i = .setbufLsb k ∨ i = .setbufMsb k → j = .setbufLsb k' ∨ j = .setbufMsb k' →
    s.cfg.P + 8 * k.toNat + s.cfg.S ≤ s'.cfg.P + 8 * k'.toNat ∨ s'.cfg.P + 8 * k'.toNat + s'.cfg.S ≤ s.cfg.P + 8 * k.toNat →
    exec i s = .next t →
    s'.inp.bufIn = t.out.bufOut → exec j s' = .next t' →
    r.cfg = s'.cfg → r.inp.valueIn = s'.inp.valueIn → r.inp.bufIn = s.inp.bufIn → exec j r = .next u →
    (∀ n, s.cfg.P + 8 * k.toNat ≤ n → n < s.cfg.P + 8 * k.toNat + s.cfg.S →
      streamBit t'.out.bufOut n = streamBit t.out.bufOut n ∧ streamBit u.out.bufOut n = streamBit s.inp.bufIn n) ∧
    (∀ n, s'.cfg.P + 8 * k'.toNat ≤ n → n < s'.cfg.P + 8 * k'.toNat + s'.cfg.S →
      streamBit t'.out.bufOut n = streamBit u.out.bufOut n)

/-- Work of two agents that nothing serialises is a race exactly where they share a byte and one of them writes back (R215,
R62): of a command's issue, a store, and the host's own writes, reads and copies. Agents on disjoint bytes never race (R61). -/
def Obligations.UnserialisedOverlapIsARace : Prop :=
  (∀ (s t : State) (rest : List HostAction) (i : Instr), IssuesNext s rest → decode s.cfg s.inp.cmd = .ok i →
    exec i (sample s) = .next t →
    (step s = .fault .race ↔
      ∃ b ∈ s.accesses, b.agent ≠ s.agent ∧ b.writesBack = true ∧ ∃ x, ReadsByte s i x ∧ b.lo ≤ x ∧ x < b.hi)) ∧
  (∀ (s : State) (a n dst : Nat) (bs : List Byte) (rest : List HostAction),
    (s.pending = .storeByte a :: rest → (step s = .fault .race ↔ Races s a (a + 1) true)) ∧
    (s.pending = .storeBuf a :: rest → (step s = .fault .race ↔ Races s a (a + s.outOf.N) true)) ∧
    (s.pending = .write a bs :: rest → (step s = .fault .race ↔ Races s a (a + bs.length) true)) ∧
    (s.pending = .read a n :: rest → (step s = .fault .race ↔ Races s a (a + n) false)) ∧
    (s.pending = .copy a dst n :: rest →
      (step s = .fault .race ↔ Races s a (a + n) false ∨ Races s dst (dst + n) true)))

/-- Reading alone never races (R215): where no other agent's write-back is on record, no issue and no read of the host's is a
race. Once the host has serialised its agents nothing is on record; serialising is an action of the model's own (logs 11,
13). -/
def Obligations.ReadersNeverRace : Prop :=
  (∀ (s : State) (rest : List HostAction), IssuesNext s rest → (∀ a ∈ s.accesses, a.agent ≠ s.agent → a.writesBack = false) →
    step s ≠ .fault .race) ∧
  (∀ (s : State) (a n : Nat) (rest : List HostAction),
    (∀ b ∈ s.accesses, b.agent ≠ s.agent → b.writesBack = false) → s.pending = .read a n :: rest →
    step s ≠ .fault .race) ∧
  (∀ (s : State) (rest : List HostAction), s.pending = .serialise :: rest →
    step s = .next { s with pending := rest, accesses := [] })

/-- The host's memory changes only by the host's own steps that store into it (R28, R32): no issue, no driving, no turn and
no other action changes any byte of it. -/
def Obligations.OnlyStoresWriteTheHostsMemory : Prop :=
  ∀ s t : State, step s = .next t →
    (∀ a, s.pending.head? ≠ some (.storeByte a)) → (∀ a, s.pending.head? ≠ some (.storeBuf a)) →
    (∀ a bs, s.pending.head? ≠ some (.write a bs)) → (∀ a d n, s.pending.head? ≠ some (.copy a d n)) → t.mem = s.mem

/-- What an issue presents is the host's data of that moment (R27, R28, R212): the byte, the source byte and the N bytes from
the addresses presented, the variable presented with its low W bits, and otherwise what the port was driven with. -/
def Obligations.IssuePresentsTheHostsData : Prop :=
  ∀ (s t : State) (rest : List HostAction), IssuesNext s rest → step s = .next t →
    t.pending = rest ∧ t.inp.cmd = s.inp.cmd ∧ t.source = s.source ∧
    (∀ a, s.source.byte = some a → t.inp.byteIn = hostByte s.mem a) ∧
    (s.source.byte = none → t.inp.byteIn = s.inp.byteIn) ∧
    (∀ a, s.source.src = some a → t.inp.srcIn = hostByte s.mem a) ∧
    (s.source.src = none → t.inp.srcIn = s.inp.srcIn) ∧
    (∀ a, s.source.buf = some a → ∀ k < s.cfg.N, byteAt t.inp.bufIn k = hostByte s.mem (a + k)) ∧
    (s.source.buf = none → t.inp.bufIn = s.inp.bufIn) ∧
    (∀ x, s.source.value = some x → t.inp.valueIn = varAt s.vars x % 2 ^ s.cfg.W) ∧
    (s.source.value = none → t.inp.valueIn = s.inp.valueIn)

/-- Presenting host data on a port changes nothing but where that port's data come from (R25). -/
def Obligations.PresentingNamesTheHostsData : Prop :=
  ∀ (s : State) (rest : List HostAction) (a : Nat),
    (s.pending = .presentByte a :: rest →
      step s = .next { s with source := { s.source with byte := some a }, pending := rest }) ∧
    (s.pending = .presentSrc a :: rest →
      step s = .next { s with source := { s.source with src := some a }, pending := rest }) ∧
    (s.pending = .presentBuf a :: rest →
      step s = .next { s with source := { s.source with buf := some a }, pending := rest }) ∧
    (s.pending = .presentValue a :: rest →
      step s = .next { s with source := { s.source with value := some a }, pending := rest })

/-- A completed command is on record: what was on record stays, every byte of the host's that it read (R59) is under an
access of the present thread, and nothing else comes in. The record is the model's own (log 13). -/
def Obligations.CommandsRecordWhatTheyRead : Prop :=
  ∀ (s t : State) (rest : List HostAction) (i : Instr), IssuesNext s rest → decode s.cfg s.inp.cmd = .ok i →
    step s = .next t →
    (∀ r ∈ s.accesses, r ∈ t.accesses) ∧
    (∀ x, ReadsByte s i x → ∃ r ∈ t.accesses, r.agent = s.agent ∧ r.lo ≤ x ∧ x < r.hi) ∧
    (∀ r ∈ t.accesses, r ∈ s.accesses ∨
      (r.agent = s.agent ∧ r.writesBack = false ∧ ∀ x, r.lo ≤ x → x < r.hi → ReadsByte s i x))

/-- An issue whose `err_code` is not 0 is a fault of the step that carries the block's outputs, a completed issue has `err_code`
0, and no issue that a safe run makes, at whichever of its steps, has an error (R187). -/
def Obligations.ErrorCodeIsAFault : Prop :=
  (∀ (s : State) (rest : List HostAction), IssuesNext s rest →
    ((respond (sample s)).errCode ≠ 0#2 → ∃ f, step s = .fault f ∧ faultOuts f = some (respond (sample s))) ∧
    (∀ t, step s = .next t → t.out.errCode = 0#2)) ∧
  (∀ (s u : State) (rest : List HostAction) (j k : Nat), SafeRun k s → j < k → Sys2Proof.core.run j s = .next u →
    IssuesNext u rest → (respond (sample u)).errCode = 0#2)

/-- A host that stores `byte_out` or `buf_out` back after an error changes nothing (R185). That it goes on after the error is
the model's own reading (log 6). -/
def Obligations.WriteBackAfterErrorChangesNothing : Prop :=
  ∀ (s t u : State) (a : Nat) (rest : List HostAction),
    stepReading s = .next t → (∃ f, step s = .fault f) →
    (s.source.byte = some a → s.pending = .issue :: .storeByte a :: rest → step t = .next u →
      ∀ x, hostByte u.mem x = hostByte s.mem x) ∧
    (s.source.buf = some a → s.pending = .issue :: .storeBuf a :: rest → step t = .next u →
      ∀ x, hostByte u.mem x = hostByte s.mem x)

/-- The host's variables hold the results it stores in them, and its own numbers; nothing else changes (R81). -/
def Obligations.VariablesHoldWhatIsStored : Prop :=
  ∀ (s : State) (x v : Nat) (rest : List HostAction),
    (s.pending = .storeValue x :: rest → ∃ vs, step s = .next { s with vars := vs, pending := rest } ∧
      ∀ y, varAt vs y = if y = x then s.out.valueOut else varAt s.vars y) ∧
    (s.pending = .storeErr x :: rest → ∃ vs, step s = .next { s with vars := vs, pending := rest } ∧
      ∀ y, varAt vs y = if y = x then s.out.errCode.toNat else varAt s.vars y) ∧
    (s.pending = .setVar x v :: rest → ∃ vs, step s = .next { s with vars := vs, pending := rest } ∧
      ∀ y, varAt vs y = if y = x then v else varAt s.vars y)

/-- The host's own writes and copies of its memory, and its reads, where no other agent's access is outstanding: the bytes
named change and no other byte, and the accesses are recorded. These actions are the model's own (logs 11, 13). -/
def Obligations.TheHostsOwnAccesses : Prop :=
  ∀ (s : State) (a n dst : Nat) (bs : List Byte) (rest : List HostAction), (∀ b ∈ s.accesses, b.agent = s.agent) →
    (s.pending = .write a bs :: rest →
      ∃ m as, step s = .next { s with mem := m, pending := rest, accesses := as } ∧
        (∀ x, hostByte m x = if a ≤ x then (bs[x - a]?).getD (hostByte s.mem x) else hostByte s.mem x) ∧
        ∀ b, b ∈ as ↔ b ∈ s.accesses ∨ b = { agent := s.agent, lo := a, hi := a + bs.length, writesBack := true }) ∧
    (s.pending = .read a n :: rest →
      ∃ as, step s = .next { s with pending := rest, accesses := as } ∧
        ∀ b, b ∈ as ↔ b ∈ s.accesses ∨ b = { agent := s.agent, lo := a, hi := a + n, writesBack := false }) ∧
    (s.pending = .copy a dst n :: rest →
      ∃ m as, step s = .next { s with mem := m, pending := rest, accesses := as } ∧
        (∀ x, hostByte m x = if dst ≤ x ∧ x < dst + n then hostByte s.mem (a + (x - dst)) else hostByte s.mem x) ∧
        ∀ b, b ∈ as ↔ b ∈ s.accesses ∨ b = { agent := s.agent, lo := a, hi := a + n, writesBack := false } ∨
          b = { agent := s.agent, lo := dst, hi := dst + n, writesBack := true })

/-- The host's threads share its memory alone (R192): a turn leaves every thread as it was, the memory and the record of
accesses too, and no other step touches a thread that has not the turn. -/
def Obligations.ThreadsShareMemoryAlone : Prop :=
  (∀ (s : State) (n : Nat) (rest : List HostAction), s.pending = .turn n :: rest →
    ∃ t, step s = .next t ∧ t.agent = n ∧ t.toThread = threadOf s n ∧ (∀ m, threadOf t m = threadOf s m) ∧
      t.mem = s.mem ∧ t.accesses = s.accesses ∧ t.pending = rest) ∧
  (∀ s t : State, step s = .next t → (∀ n, s.pending.head? ≠ some (.turn n)) →
    t.agent = s.agent ∧ t.parked = s.parked ∧ ∀ m, m ≠ s.agent → threadOf t m = threadOf s m)
end

