-- ==== Sys2Proof/Laws/State.lean ====
section
/-! SUPPORT. Every named update of outputs and states, field by field. -/

namespace Sys2Proof.Machine

open Sys2Proof

section Outputs

variable (inp : Inputs) (s : State) (e : CmdError) (t : Nat) (b : Byte) (m : Memory)

@[simp] theorem defaultOutputs_valueOut : (defaultOutputs inp).valueOut = 0 := rfl
@[simp] theorem defaultOutputs_byteOut : (defaultOutputs inp).byteOut = inp.byteIn := rfl
@[simp] theorem defaultOutputs_bufOut : (defaultOutputs inp).bufOut = inp.bufIn := rfl
@[simp] theorem defaultOutputs_errCode : (defaultOutputs inp).errCode = 0#2 := rfl

@[simp] theorem faultOutputs_valueOut : (faultOutputs e inp).valueOut = 0 := rfl
@[simp] theorem faultOutputs_byteOut : (faultOutputs e inp).byteOut = inp.byteIn := rfl
@[simp] theorem faultOutputs_bufOut : (faultOutputs e inp).bufOut = inp.bufIn := rfl
@[simp] theorem faultOutputs_errCode : (faultOutputs e inp).errCode = errBits (some e) := rfl

@[simp] theorem valueOutputs_valueOut : (valueOutputs s t).valueOut = truncTo s.cfg.W t := rfl
@[simp] theorem valueOutputs_byteOut : (valueOutputs s t).byteOut = s.inp.byteIn := rfl
@[simp] theorem valueOutputs_bufOut : (valueOutputs s t).bufOut = s.inp.bufIn := rfl
@[simp] theorem valueOutputs_errCode : (valueOutputs s t).errCode = 0#2 := rfl

@[simp] theorem byteOutputs_valueOut : (byteOutputs s b).valueOut = 0 := rfl
@[simp] theorem byteOutputs_byteOut : (byteOutputs s b).byteOut = b := rfl
@[simp] theorem byteOutputs_bufOut : (byteOutputs s b).bufOut = s.inp.bufIn := rfl
@[simp] theorem byteOutputs_errCode : (byteOutputs s b).errCode = 0#2 := rfl

@[simp] theorem bufOutputs_valueOut : (bufOutputs s m).valueOut = 0 := rfl
@[simp] theorem bufOutputs_byteOut : (bufOutputs s m).byteOut = s.inp.byteIn := rfl
@[simp] theorem bufOutputs_bufOut : (bufOutputs s m).bufOut = m := rfl
@[simp] theorem bufOutputs_errCode : (bufOutputs s m).errCode = 0#2 := rfl

end Outputs

section Host

variable (cfg : Config) (s : State) (n a x v : Nat) (bs : List Byte) (out : Outputs)

@[simp] theorem sample_cfg : (sample s).cfg = s.cfg := rfl
@[simp] theorem sample_cmd : (sample s).inp.cmd = s.inp.cmd := rfl
@[simp] theorem sample_byteIn : (sample s).inp.byteIn = sampleByte s s.source.byte s.inp.byteIn := rfl
@[simp] theorem sample_srcIn : (sample s).inp.srcIn = sampleByte s s.source.src s.inp.srcIn := rfl
@[simp] theorem sample_bufIn : (sample s).inp.bufIn = sampleBuf s := rfl
@[simp] theorem sample_valueIn : (sample s).inp.valueIn = sampleValue s := rfl
@[simp] theorem sample_source : (sample s).source = s.source := rfl
@[simp] theorem sample_out : (sample s).out = s.out := rfl
@[simp] theorem sample_outOf : (sample s).outOf = s.outOf := rfl
@[simp] theorem sample_vars : (sample s).vars = s.vars := rfl
@[simp] theorem sample_agent : (sample s).agent = s.agent := rfl
@[simp] theorem sample_parked : (sample s).parked = s.parked := rfl
@[simp] theorem sample_mem : (sample s).mem = s.mem := rfl
@[simp] theorem sample_pending : (sample s).pending = s.pending := rfl
@[simp] theorem sample_accesses : (sample s).accesses = s.accesses := rfl

@[simp] theorem refit_cfg : (refit cfg s).cfg = cfg := rfl
@[simp] theorem refit_cmd : (refit cfg s).inp.cmd = s.inp.cmd := rfl
@[simp] theorem refit_byteIn : (refit cfg s).inp.byteIn = s.inp.byteIn := rfl
@[simp] theorem refit_srcIn : (refit cfg s).inp.srcIn = s.inp.srcIn := rfl
@[simp] theorem refit_bufIn : (refit cfg s).inp.bufIn = Memory.restrict cfg.N s.inp.bufIn := rfl
@[simp] theorem refit_valueIn : (refit cfg s).inp.valueIn = widenValue s.cfg.W cfg.W s.inp.valueIn := rfl
@[simp] theorem refit_source : (refit cfg s).source = s.source := rfl
@[simp] theorem refit_out : (refit cfg s).out = s.out := rfl
@[simp] theorem refit_outOf : (refit cfg s).outOf = s.outOf := rfl
@[simp] theorem refit_vars : (refit cfg s).vars = s.vars := rfl
@[simp] theorem refit_agent : (refit cfg s).agent = s.agent := rfl
@[simp] theorem refit_parked : (refit cfg s).parked = s.parked := rfl
@[simp] theorem refit_mem : (refit cfg s).mem = s.mem := rfl
@[simp] theorem refit_pending : (refit cfg s).pending = s.pending := rfl
@[simp] theorem refit_accesses : (refit cfg s).accesses = s.accesses := rfl

@[simp] theorem turnTo_toThread : (turnTo n s).toThread = threadOf s n := rfl
@[simp] theorem turnTo_agent : (turnTo n s).agent = n := rfl
@[simp] theorem turnTo_parked : (turnTo n s).parked = (allThreads s).filter (fun c => decide (c.1 ≠ n)) := rfl
@[simp] theorem turnTo_mem : (turnTo n s).mem = s.mem := rfl
@[simp] theorem turnTo_pending : (turnTo n s).pending = s.pending := rfl
@[simp] theorem turnTo_accesses : (turnTo n s).accesses = s.accesses := rfl

@[simp] theorem storeOp_cfg : (storeOp a bs s).cfg = s.cfg := rfl
@[simp] theorem storeOp_inp : (storeOp a bs s).inp = s.inp := rfl
@[simp] theorem storeOp_source : (storeOp a bs s).source = s.source := rfl
@[simp] theorem storeOp_out : (storeOp a bs s).out = s.out := rfl
@[simp] theorem storeOp_outOf : (storeOp a bs s).outOf = s.outOf := rfl
@[simp] theorem storeOp_vars : (storeOp a bs s).vars = s.vars := rfl
@[simp] theorem storeOp_agent : (storeOp a bs s).agent = s.agent := rfl
@[simp] theorem storeOp_parked : (storeOp a bs s).parked = s.parked := rfl
@[simp] theorem storeOp_mem : (storeOp a bs s).mem = storeBytes s.mem a bs := rfl
@[simp] theorem storeOp_pending : (storeOp a bs s).pending = s.pending := rfl
@[simp] theorem storeOp_accesses : (storeOp a bs s).accesses = s.accesses := rfl

@[simp] theorem setVarOp_cfg : (setVarOp x v s).cfg = s.cfg := rfl
@[simp] theorem setVarOp_inp : (setVarOp x v s).inp = s.inp := rfl
@[simp] theorem setVarOp_source : (setVarOp x v s).source = s.source := rfl
@[simp] theorem setVarOp_out : (setVarOp x v s).out = s.out := rfl
@[simp] theorem setVarOp_outOf : (setVarOp x v s).outOf = s.outOf := rfl
@[simp] theorem setVarOp_vars : (setVarOp x v s).vars = Memory.write s.vars x v := rfl
@[simp] theorem setVarOp_agent : (setVarOp x v s).agent = s.agent := rfl
@[simp] theorem setVarOp_parked : (setVarOp x v s).parked = s.parked := rfl
@[simp] theorem setVarOp_mem : (setVarOp x v s).mem = s.mem := rfl
@[simp] theorem setVarOp_pending : (setVarOp x v s).pending = s.pending := rfl
@[simp] theorem setVarOp_accesses : (setVarOp x v s).accesses = s.accesses := rfl

end Host

section Fetch

variable (s : State) (nbits w : Nat)

@[simp] theorem withFetchWord_cfg : (s.withFetchWord nbits w).cfg = s.cfg := rfl
@[simp] theorem withFetchWord_cmd : (s.withFetchWord nbits w).inp.cmd = BitVec.ofNat 32 (w % 2 ^ nbits) := rfl
@[simp] theorem withFetchWord_byteIn : (s.withFetchWord nbits w).inp.byteIn = s.inp.byteIn := rfl
@[simp] theorem withFetchWord_srcIn : (s.withFetchWord nbits w).inp.srcIn = s.inp.srcIn := rfl
@[simp] theorem withFetchWord_bufIn : (s.withFetchWord nbits w).inp.bufIn = s.inp.bufIn := rfl
@[simp] theorem withFetchWord_valueIn : (s.withFetchWord nbits w).inp.valueIn = s.inp.valueIn := rfl
@[simp] theorem withFetchWord_source : (s.withFetchWord nbits w).source = s.source := rfl
@[simp] theorem withFetchWord_out : (s.withFetchWord nbits w).out = s.out := rfl
@[simp] theorem withFetchWord_outOf : (s.withFetchWord nbits w).outOf = s.outOf := rfl
@[simp] theorem withFetchWord_vars : (s.withFetchWord nbits w).vars = s.vars := rfl
@[simp] theorem withFetchWord_agent : (s.withFetchWord nbits w).agent = s.agent := rfl
@[simp] theorem withFetchWord_parked : (s.withFetchWord nbits w).parked = s.parked := rfl
@[simp] theorem withFetchWord_mem : (s.withFetchWord nbits w).mem = s.mem := rfl
@[simp] theorem withFetchWord_pending : (s.withFetchWord nbits w).pending = [] := rfl
@[simp] theorem withFetchWord_accesses : (s.withFetchWord nbits w).accesses = [] := rfl

end Fetch

end Sys2Proof.Machine
end

