-- ==== Sys2Proof/Laws/Memory.lean ====
section
/-! SUPPORT. The laws of the buffer: reading after a write, and the canonical form every operation keeps. -/

namespace Sys2Proof.Machine

open Sys2Proof

variable {α : Type}

@[simp] theorem read?_nil (k : Nat) : Memory.read? ([] : List (Nat × α)) k = none := rfl

theorem read?_write (m : List (Nat × α)) (k : Nat) (v : α) (j : Nat) :
    Memory.read? (Memory.write m k v) j = if j = k then some v else Memory.read? m j := by
  induction m with
  | nil => simp [Memory.write, Memory.read?, eq_comm]
  | cons c m ih =>
    obtain ⟨a, b⟩ := c
    by_cases h1 : k < a
    · simp only [Memory.write, if_pos h1, Memory.read?, @eq_comm Nat k j]
    by_cases h2 : k = a
    · subst h2
      simp only [Memory.write, if_neg h1, if_true, Memory.read?, @eq_comm Nat j k]
      split_ifs <;> rfl
    simp only [Memory.write, if_neg h1, if_neg h2, Memory.read?, ih]
    by_cases h3 : a = j
    · rw [if_pos h3, if_neg (by omega), if_pos h3]
    · rw [if_neg h3, if_neg h3]

theorem byteAt_write (m : Memory) (k : Nat) (v : Byte) (j : Nat) :
    byteAt (Memory.write m k v) j = if j = k then v else byteAt m j := by
  simp only [byteAt, read?_write]
  split <;> simp_all

theorem mem_write (m : List (Nat × α)) (k : Nat) (v : α) (c : Nat × α) (h : c ∈ Memory.write m k v) :
    c = (k, v) ∨ c ∈ m := by
  induction m with
  | nil => simpa [Memory.write] using h
  | cons d m ih =>
    obtain ⟨a, b⟩ := d
    simp only [Memory.write] at h
    split_ifs at h <;> simp only [List.mem_cons] at h ⊢
    · exact h
    · exact h.imp id Or.inr
    · rcases h with h | h
      · exact .inr (.inl h)
      · exact (ih h).imp id Or.inr

theorem write_within {n : Nat} {m : Memory} {k : Nat} (v : Byte) (hm : Memory.within n m) (hk : k < n) :
    Memory.within n (Memory.write m k v) := by
  intro c hc
  rcases mem_write m k v c hc with rfl | hc
  · exact hk
  · exact hm c hc

theorem write_wf {m : List (Nat × α)} (k : Nat) (v : α) (hm : Memory.wf m) : Memory.wf (Memory.write m k v) := by
  induction m with
  | nil => simp [Memory.wf, Memory.write]
  | cons d m ih =>
    obtain ⟨a, b⟩ := d
    have hm' := List.pairwise_cons.mp (by simpa [Memory.wf] using hm : List.Pairwise (· < ·) (a :: m.map Prod.fst))
    simp only [Memory.write]
    split_ifs with h1 h2
    · simp only [Memory.wf, List.map_cons, List.pairwise_cons]
      refine ⟨?_, hm'⟩
      simp only [List.mem_cons]
      rintro x (rfl | hx)
      · exact h1
      · exact lt_trans h1 (hm'.1 x hx)
    · subst h2
      simpa [Memory.wf] using hm'
    · simp only [Memory.wf, List.map_cons, List.pairwise_cons]
      refine ⟨?_, ih hm'.2⟩
      intro x hx
      obtain ⟨c, hc, rfl⟩ := List.mem_map.mp hx
      rcases mem_write m k v c hc with rfl | hc
      · show a < k
        omega
      · exact hm'.1 _ (List.mem_map_of_mem hc)

theorem filter_wf {m : List (Nat × α)} (p : Nat × α → Bool) (hm : Memory.wf m) : Memory.wf (m.filter p) :=
  List.Pairwise.sublist (List.filter_sublist.map Prod.fst) hm

/-- Dropping index `n` leaves every other entry. -/
theorem read?_filter_ne (m : List (Nat × α)) (n k : Nat) :
    Memory.read? (m.filter (fun c => decide (c.1 ≠ n))) k = if k = n then none else Memory.read? m k := by
  induction m with
  | nil => simp
  | cons c m ih =>
    obtain ⟨a, b⟩ := c
    by_cases h : a = n
    · subst h
      simp only [ne_eq, not_true, decide_false, Bool.false_eq_true, not_false_eq_true, List.filter_cons_of_neg, ih,
        Memory.read?]
      by_cases hk : k = a
      · rw [if_pos hk, if_pos hk]
      · rw [if_neg hk, if_neg hk, if_neg (fun e => hk e.symm)]
    · simp only [ne_eq, h, not_false_eq_true, decide_true, List.filter_cons_of_pos, Memory.read?, ih]
      by_cases hk : k = n
      · rw [if_pos hk, if_neg (fun e => h (e.trans hk)), if_pos hk]
      · rw [if_neg hk, if_neg hk]

theorem mem_of_read? {m : List (Nat × α)} {k : Nat} {v : α} (h : Memory.read? m k = some v) : (k, v) ∈ m := by
  induction m with
  | nil => cases h
  | cons c m ih =>
    obtain ⟨a, b⟩ := c
    simp only [Memory.read?] at h
    split at h
    · rename_i e
      cases h; subst e; exact List.mem_cons_self
    · exact List.mem_cons_of_mem _ (ih h)

theorem restrict_wf {m : Memory} (n : Nat) (hm : Memory.wf m) : Memory.wf (Memory.restrict n m) :=
  filter_wf _ hm

theorem restrict_within (n : Nat) (m : Memory) : Memory.within n (Memory.restrict n m) := by
  intro c hc
  simpa using (List.mem_filter.mp hc).2

theorem mem_ofBytesFrom (bs : List Byte) : ∀ (k : Nat) (c : Host.Cell), c ∈ Memory.ofBytesFrom k bs →
    k ≤ c.1 ∧ c.1 < k + bs.length := by
  induction bs with
  | nil => simp [Memory.ofBytesFrom]
  | cons b bs ih =>
    intro k c hc
    simp only [Memory.ofBytesFrom, List.mem_cons] at hc
    simp only [List.length_cons]
    rcases hc with rfl | hc
    · exact ⟨le_refl k, by simp⟩
    · have := ih (k + 1) c hc
      omega

theorem ofBytes_within (bs : List Byte) : Memory.within bs.length (Memory.ofBytes bs) := by
  intro c hc
  have := mem_ofBytesFrom bs 0 c hc
  omega

theorem ofBytesFrom_wf (bs : List Byte) : ∀ k, Memory.wf (Memory.ofBytesFrom k bs) := by
  induction bs with
  | nil => simp [Memory.ofBytesFrom, Memory.wf]
  | cons b bs ih =>
    intro k
    simp only [Memory.wf, Memory.ofBytesFrom, List.map_cons, List.pairwise_cons]
    refine ⟨?_, ih (k + 1)⟩
    intro x hx
    obtain ⟨c, hc, rfl⟩ := List.mem_map.mp hx
    have := mem_ofBytesFrom bs (k + 1) c hc
    omega

theorem ofBytes_wf (bs : List Byte) : Memory.wf (Memory.ofBytes bs) := ofBytesFrom_wf bs 0

theorem read?_ofBytesFrom (bs : List Byte) : ∀ (k j : Nat),
    Memory.read? (Memory.ofBytesFrom k bs) (k + j) = bs[j]? := by
  induction bs with
  | nil => simp [Memory.ofBytesFrom]
  | cons b bs ih =>
    intro k j
    cases j with
    | zero => simp [Memory.ofBytesFrom, Memory.read?]
    | succ j =>
      have h := ih (k + 1) j
      rw [show k + (j + 1) = k + 1 + j by omega]
      simp only [Memory.ofBytesFrom, Memory.read?]
      rw [if_neg (by omega), h]
      simp

/-- The buffer a host presents holds its bytes in order (R50). -/
theorem byteAt_ofBytes (bs : List Byte) (k : Nat) (h : k < bs.length) : byteAt (Memory.ofBytes bs) k = bs[k] := by
  have := read?_ofBytesFrom bs 0 k
  simp only [Nat.zero_add] at this
  simp [byteAt, Memory.ofBytes, this, h]

theorem storeBytes_wf (bs : List Byte) : ∀ {m : Memory} (a : Nat), Memory.wf m → Memory.wf (storeBytes m a bs) := by
  induction bs with
  | nil => intro m a h; exact h
  | cons b bs ih => intro m a h; exact ih _ (write_wf _ _ h)

theorem hostByte_write (m : Memory) (k : Nat) (v : Byte) (j : Nat) :
    hostByte (Memory.write m k v) j = if j = k then v else hostByte m j := by
  simp only [hostByte, read?_write]
  split <;> simp_all

/-- A store sets its own bytes and leaves every other byte of the host's memory alone. -/
theorem hostByte_storeBytes (bs : List Byte) : ∀ (m : Memory) (a j : Nat),
    hostByte (storeBytes m a bs) j = if a ≤ j then (bs[j - a]?).getD (hostByte m j) else hostByte m j := by
  induction bs with
  | nil => intro m a j; simp [storeBytes]
  | cons b bs ih =>
    intro m a j
    simp only [storeBytes, ih, hostByte_write]
    rcases lt_trichotomy j a with h | rfl | h
    · rw [if_neg (by omega), if_neg (by omega), if_neg (by omega)]
    · simp
    · obtain ⟨d, rfl⟩ : ∃ d, j = a + 1 + d := ⟨j - a - 1, by omega⟩
      rw [if_pos (by omega), if_neg (by omega), if_pos (by omega), show a + 1 + d - (a + 1) = d by omega,
        show a + 1 + d - a = d + 1 by omega]
      simp

theorem varAt_write (vars : List (Nat × Nat)) (x v y : Nat) :
    varAt (Memory.write vars x v) y = if y = x then v else varAt vars y := by
  simp only [varAt, read?_write]
  split <;> simp_all

@[simp] theorem hostBytes_length (m : Memory) (a n : Nat) : (hostBytes m a n).length = n := by simp [hostBytes]

@[simp] theorem bufOutBytes_length (s : State) : (bufOutBytes s).length = s.outOf.N := by simp [bufOutBytes]

/-- A buffer presented from the host's memory holds the host's bytes in order (R28, R50). -/
theorem byteAt_hostBytes (m : Memory) (a n k : Nat) (h : k < n) :
    byteAt (Memory.ofBytes (hostBytes m a n)) k = hostByte m (a + k) := by
  rw [byteAt_ofBytes _ k (by simpa using h)]
  simp [hostBytes]

theorem memWrite_wf {m : Memory} (addr v n : Nat) (hm : Memory.wf m) : Memory.wf (memWrite m addr v n) := by
  induction n with
  | zero => exact hm
  | succ n ih => exact write_wf _ _ ih

theorem memWrite_within {k : Nat} {m : Memory} (addr v n : Nat) (hm : Memory.within k m) (h : addr + n ≤ k) :
    Memory.within k (memWrite m addr v n) := by
  induction n with
  | zero => exact hm
  | succ n ih => exact write_within _ (ih (by omega)) (by omega)

end Sys2Proof.Machine
end

