-- ==== Sys2Proof/Laws/Bits.lean ====
section
/-! SUPPORT. What the bit operations do, bit by bit: the single-bit copy, value bytes, gathering and scattering. -/

namespace Sys2Proof.Machine

open Sys2Proof

theorem testBit_mask (k i : Nat) : (mask k).testBit i = decide (i < k) := by
  simp [mask, Nat.testBit_two_pow_sub_one]

theorem testBit_truncTo (w v i : Nat) : (truncTo w v).testBit i = (decide (i < w) && v.testBit i) := by
  simp [truncTo, Nat.testBit_mod_two_pow]

theorem truncTo_lt (w v : Nat) : truncTo w v < 2 ^ w := Nat.mod_lt _ (Nat.two_pow_pos w)

theorem widenValue_lt (w w' v : Nat) : widenValue w w' v < 2 ^ w' := truncTo_lt _ _

/-- A value port that has become wider or narrower: its old bits, and on new lines the free launch value's (R211). -/
theorem testBit_widenValue (w w' v d : Nat) :
    (widenValue w w' v).testBit d = (decide (d < w') && if d < w then v.testBit d else Config.launchValue.testBit d) := by
  rw [widenValue, truncTo, truncTo, Nat.testBit_mod_two_pow, Nat.add_comm,
    Nat.testBit_two_pow_mul_add _ (Nat.mod_lt _ (Nat.two_pow_pos w))]
  by_cases h : d < w
  · simp [h, Nat.testBit_mod_two_pow]
  · rw [if_neg h, if_neg h, Nat.testBit_div_two_pow, Nat.sub_add_cancel (Nat.not_lt.mp h)]

theorem truncTo_of_lt {w v : Nat} (h : v < 2 ^ w) : truncTo w v = v := Nat.mod_eq_of_lt h

/-- The two facts that define BitCopy (R102). -/
theorem bitCopy_getLsbD (dst src : Byte) {di si : Nat} (hd : di < 8) (hs : si < 8) (j : Nat) (hj : j < 8) :
    (bitCopy dst di src si).getLsbD j = if j = di then src.getLsbD si else dst.getLsbD j := by
  have h : ∀ dst src : BitVec 8, ∀ di si j : Fin 8,
      (bitCopy dst di src si).getLsbD j = if j = di then src.getLsbD si else dst.getLsbD j := by
    intro dst src di si j
    fin_cases di <;> fin_cases j <;> simp [bitCopy]
  simpa [Fin.ext_iff] using h dst src ⟨di, hd⟩ ⟨si, hs⟩ ⟨j, hj⟩

/-- Value byte `k` holds field bits `[8k, 8k+8)` (R55). -/
theorem valueByte_getLsbD (v k j : Nat) : (valueByte v k).getLsbD j = (decide (j < 8) && v.testBit (8 * k + j)) := by
  simp [valueByte, BitVec.getLsbD_ofNat, Nat.testBit_div_two_pow, Nat.add_comm]

theorem valueByte_bit (v d : Nat) : (valueByte v (d / 8)).getLsbD (d % 8) = v.testBit d := by
  rw [valueByte_getLsbD, Nat.div_add_mod]
  simp [Nat.mod_lt]

theorem gather_lt (f : Nat → Bool) (n : Nat) : gather f n < 2 ^ n := by
  induction n with
  | zero => simp [gather]
  | succ n ih =>
    simp only [gather]
    split <;> rw [Nat.pow_succ] <;> omega

theorem testBit_gather (f : Nat → Bool) (n i : Nat) : (gather f n).testBit i = (decide (i < n) && f i) := by
  induction n with
  | zero => simp [gather]
  | succ n ih =>
    have hlt := gather_lt f n
    simp only [gather]
    split
    · rename_i hf
      rw [Nat.add_comm]
      rcases lt_trichotomy i n with h | h | h
      · rw [Nat.testBit_two_pow_add_gt h, ih]
        simp [h, Nat.lt_succ_of_lt h]
      · subst h
        rw [Nat.testBit_two_pow_add_eq, ih]
        simp [hf]
      · have : 2 ^ n + gather f n < 2 ^ i :=
          lt_of_lt_of_le (by rw [Nat.pow_succ]; omega : 2 ^ n + gather f n < 2 ^ (n + 1))
            (Nat.pow_le_pow_right (by decide) h)
        rw [Nat.testBit_lt_two_pow this]
        simp [show ¬ i < n + 1 by omega]
    · rename_i hf
      rw [Nat.add_zero, ih]
      by_cases h : i = n
      · subst h; simp [hf]
      · simp [show (i < n + 1) ↔ (i < n) by omega]

theorem scatterByte_of_not_placed (place : Nat → Nat) (v n : Nat) (b : Byte) (j : Nat) (hj : j < 8)
    (hp : ∀ d < n, place d < 8) (h : ∀ d < n, place d ≠ j) :
    (scatterByte place v n b).getLsbD j = b.getLsbD j := by
  induction n with
  | zero => rfl
  | succ n ih =>
    simp only [scatterByte]
    rw [bitCopy_getLsbD _ _ (hp n (by omega)) (Nat.mod_lt _ (by decide)) _ hj,
      if_neg (fun e => h n (by omega) e.symm)]
    exact ih (fun d hd => hp d (by omega)) (fun d hd => h d (by omega))

theorem scatterByte_placed (place : Nat → Nat) (v n : Nat) (b : Byte) (hp : ∀ d < n, place d < 8)
    (hinj : ∀ d < n, ∀ e < n, place d = place e → d = e) (d : Nat) (hd : d < n) :
    (scatterByte place v n b).getLsbD (place d) = v.testBit d := by
  induction n with
  | zero => omega
  | succ n ih =>
    simp only [scatterByte]
    rw [bitCopy_getLsbD _ _ (hp n (by omega)) (Nat.mod_lt _ (by decide)) _ (hp d hd)]
    split
    · rename_i h
      have := hinj d hd n (by omega) h
      subst this
      exact valueByte_bit v d
    · rename_i h
      have hdn : d < n := by
        rcases Nat.lt_succ_iff_lt_or_eq.mp hd with h' | h'
        · exact h'
        · subst h'; exact absurd rfl h
      exact ih (fun d hd => hp d (by omega)) (fun d hd e he => hinj d (by omega) e (by omega)) hdn

theorem streamBit_setStreamBit (m : Memory) (i v d j : Nat) :
    streamBit (setStreamBit m i v d) j = if j = i then v.testBit d else streamBit m j := by
  simp only [streamBit, setStreamBit, byteAt_write]
  by_cases h : j / 8 = i / 8
  · rw [if_pos h, bitCopy_getLsbD _ _ (Nat.mod_lt _ (by decide)) (Nat.mod_lt _ (by decide)) _ (Nat.mod_lt _ (by decide)),
      valueByte_bit, h]
    simp only [show (j % 8 = i % 8) ↔ (j = i) by omega]
  · rw [if_neg h, if_neg (by rintro rfl; exact h rfl)]

theorem streamBit_scatterBuf_of_not_placed (place : Nat → Nat) (v n : Nat) (m : Memory) (i : Nat)
    (h : ∀ d < n, place d ≠ i) : streamBit (scatterBuf place v n m) i = streamBit m i := by
  induction n with
  | zero => rfl
  | succ n ih =>
    simp only [scatterBuf, streamBit_setStreamBit]
    rw [if_neg (fun e => h n (by omega) e.symm)]
    exact ih (fun d hd => h d (by omega))

theorem streamBit_scatterBuf_placed (place : Nat → Nat) (v n : Nat) (m : Memory)
    (hinj : ∀ d < n, ∀ e < n, place d = place e → d = e) (d : Nat) (hd : d < n) :
    streamBit (scatterBuf place v n m) (place d) = v.testBit d := by
  induction n with
  | zero => omega
  | succ n ih =>
    simp only [scatterBuf, streamBit_setStreamBit]
    split
    · rename_i h
      have := hinj d hd n (by omega) h
      subst this
      rfl
    · rename_i h
      have hdn : d < n := by
        rcases Nat.lt_succ_iff_lt_or_eq.mp hd with h' | h'
        · exact h'
        · subst h'; exact absurd rfl h
      exact ih (fun d hd e he => hinj d (by omega) e (by omega)) hdn

theorem scatterBuf_wf (place : Nat → Nat) (v n : Nat) {m : Memory} (hm : Memory.wf m) :
    Memory.wf (scatterBuf place v n m) := by
  induction n with
  | zero => exact hm
  | succ n ih => exact write_wf _ _ ih

theorem scatterBuf_within (place : Nat → Nat) (v n : Nat) {k : Nat} {m : Memory} (hm : Memory.within k m)
    (hp : ∀ d < n, place d < 8 * k) : Memory.within k (scatterBuf place v n m) := by
  induction n with
  | zero => exact hm
  | succ n ih =>
    have := hp n (by omega)
    exact write_within _ (ih (fun d hd => hp d (by omega))) (by omega)

/-- Two bytes with the same stream bits are equal. -/
theorem byteAt_eq_of_streamBit {m m' : Memory} (k : Nat)
    (h : ∀ j < 8, streamBit m (8 * k + j) = streamBit m' (8 * k + j)) : byteAt m k = byteAt m' k := by
  apply BitVec.eq_of_getLsbD_eq
  intro j hj
  have := h j hj
  simpa [streamBit, show (8 * k + j) / 8 = k by omega, show (8 * k + j) % 8 = j by omega] using this

end Sys2Proof.Machine
end

