-- ==== Sys2Proof/Laws/Encoding.lean ====
section
/-! SUPPORT. The fields of an assembled word, and a word from its fields (30_encoding.md R71, R80). -/

namespace Sys2Proof

section Fields

variable (op didx sidx : BitVec 3) (boff : BitVec 16)

theorem getLsbD_encodeFields (i : Nat) : (encodeFields op didx sidx boff).getLsbD i =
    ((decide (16 ≤ i) && boff.getLsbD (i - 16)) || (decide (12 ≤ i) && sidx.getLsbD (i - 12))
      || (decide (8 ≤ i) && didx.getLsbD (i - 8)) || op.getLsbD i) := by
  by_cases h : i < 32
  · simp only [encodeFields, BitVec.getLsbD_or, BitVec.getLsbD_shiftLeft, BitVec.getLsbD_setWidth, h,
      show i - 16 < 32 by omega, show i - 12 < 32 by omega, show i - 8 < 32 by omega, decide_true, Bool.true_and,
      ← decide_not, not_lt]
  · rw [BitVec.getLsbD_of_ge _ _ (by omega), BitVec.getLsbD_of_ge boff _ (by omega),
      BitVec.getLsbD_of_ge sidx _ (by omega), BitVec.getLsbD_of_ge didx _ (by omega),
      BitVec.getLsbD_of_ge op _ (by omega)]
    simp

@[simp] theorem opOf_encodeFields : opOf (encodeFields op didx sidx boff) = op := by
  apply BitVec.eq_of_getLsbD_eq
  intro i hi
  rw [opOf, BitVec.getLsbD_extractLsb', getLsbD_encodeFields]
  simp [hi, show ¬ 16 ≤ i by omega, show ¬ 12 ≤ i by omega, show ¬ 8 ≤ i by omega]

@[simp] theorem rsv0Of_encodeFields : rsv0Of (encodeFields op didx sidx boff) = 0#5 := by
  apply BitVec.eq_of_getLsbD_eq
  intro i hi
  rw [rsv0Of, BitVec.getLsbD_extractLsb', getLsbD_encodeFields, BitVec.getLsbD_of_ge op _ (by omega)]
  simp [show ¬ 16 ≤ 3 + i by omega, show ¬ 12 ≤ 3 + i by omega, show ¬ 8 ≤ 3 + i by omega]

@[simp] theorem didxOf_encodeFields : didxOf (encodeFields op didx sidx boff) = didx := by
  apply BitVec.eq_of_getLsbD_eq
  intro i hi
  rw [didxOf, BitVec.getLsbD_extractLsb', getLsbD_encodeFields, BitVec.getLsbD_of_ge op _ (by omega)]
  simp [hi, show ¬ 16 ≤ 8 + i by omega, show ¬ 12 ≤ 8 + i by omega]

@[simp] theorem rsv1Of_encodeFields : rsv1Of (encodeFields op didx sidx boff) = 0#1 := by
  apply BitVec.eq_of_getLsbD_eq
  intro i hi
  rw [rsv1Of, BitVec.getLsbD_extractLsb', getLsbD_encodeFields, BitVec.getLsbD_of_ge op _ (by omega),
    BitVec.getLsbD_of_ge didx _ (by omega)]
  simp [show ¬ 16 ≤ 11 + i by omega, show ¬ 12 ≤ 11 + i by omega]

@[simp] theorem sidxOf_encodeFields : sidxOf (encodeFields op didx sidx boff) = sidx := by
  apply BitVec.eq_of_getLsbD_eq
  intro i hi
  rw [sidxOf, BitVec.getLsbD_extractLsb', getLsbD_encodeFields, BitVec.getLsbD_of_ge op _ (by omega),
    BitVec.getLsbD_of_ge didx _ (by omega)]
  simp [hi, show ¬ 16 ≤ 12 + i by omega]

@[simp] theorem rsv2Of_encodeFields : rsv2Of (encodeFields op didx sidx boff) = 0#1 := by
  apply BitVec.eq_of_getLsbD_eq
  intro i hi
  rw [rsv2Of, BitVec.getLsbD_extractLsb', getLsbD_encodeFields, BitVec.getLsbD_of_ge op _ (by omega),
    BitVec.getLsbD_of_ge didx _ (by omega), BitVec.getLsbD_of_ge sidx _ (by omega)]
  simp [show ¬ 16 ≤ 15 + i by omega]

@[simp] theorem boffOf_encodeFields : boffOf (encodeFields op didx sidx boff) = boff := by
  apply BitVec.eq_of_getLsbD_eq
  intro i hi
  rw [boffOf, BitVec.getLsbD_extractLsb', getLsbD_encodeFields, BitVec.getLsbD_of_ge op _ (by omega),
    BitVec.getLsbD_of_ge didx _ (by omega), BitVec.getLsbD_of_ge sidx _ (by omega)]
  simp [hi]

end Fields

/-- Every bit of a word is a bit of one of its fields. -/
theorem cmd_eq_encodeFields {cmd : CmdWord} (h0 : rsv0Of cmd = 0#5) (h1 : rsv1Of cmd = 0#1) (h2 : rsv2Of cmd = 0#1) :
    cmd = encodeFields (opOf cmd) (didxOf cmd) (sidxOf cmd) (boffOf cmd) := by
  have r0 : ∀ i < 5, cmd.getLsbD (3 + i) = false := by
    intro i hi
    simpa [rsv0Of, BitVec.getLsbD_extractLsb', hi] using congrArg (·.getLsbD i) h0
  have r1 : cmd.getLsbD 11 = false := by
    simpa [rsv1Of, BitVec.getLsbD_extractLsb'] using congrArg (·.getLsbD 0) h1
  have r2 : cmd.getLsbD 15 = false := by
    simpa [rsv2Of, BitVec.getLsbD_extractLsb'] using congrArg (·.getLsbD 0) h2
  apply BitVec.eq_of_getLsbD_eq
  intro i hi
  rw [getLsbD_encodeFields]
  simp only [opOf, didxOf, sidxOf, boffOf, BitVec.getLsbD_extractLsb', Nat.zero_add]
  by_cases a : i < 3
  · simp [a, show ¬ 16 ≤ i by omega, show ¬ 12 ≤ i by omega, show ¬ 8 ≤ i by omega]
  by_cases b : i < 8
  · have := r0 (i - 3) (by omega)
    rw [show 3 + (i - 3) = i by omega] at this
    simp [this, a, show ¬ 16 ≤ i by omega, show ¬ 12 ≤ i by omega, show ¬ 8 ≤ i by omega]
  by_cases c : i < 11
  · simp [a, show ¬ 16 ≤ i by omega, show ¬ 12 ≤ i by omega, show 8 ≤ i by omega, show i - 8 < 3 by omega,
      show 8 + (i - 8) = i by omega]
  by_cases d : i = 11
  · subst d; simpa using r1
  by_cases e : i < 15
  · simp [a, show ¬ 16 ≤ i by omega, show 12 ≤ i by omega, show ¬ i - 8 < 3 by omega, show i - 12 < 3 by omega,
      show 12 + (i - 12) = i by omega]
  by_cases f : i = 15
  · subst f; simpa using r2
  · simp [a, show 16 ≤ i by omega, show ¬ i - 8 < 3 by omega, show ¬ i - 12 < 3 by omega, show i - 16 < 16 by omega,
      show 16 + (i - 16) = i by omega]

end Sys2Proof
end

