-- ==== Sys2Proof/Laws/Exec.lean ====
section
/-! SUPPORT. What each shared operation and `exec` can answer, said once. -/

namespace Sys2Proof.Machine

open Sys2Proof

theorem complete_next {out : Outputs} {s t : State} (h : complete out s = .next t) : t = { s with out := out } := by
  cases h; rfl

theorem raise_ne_next (e : CmdError) (s t : State) : raise e s ≠ .next t := by
  cases e <;> simp [raise]

theorem raise_ne_refused (e : CmdError) (s : State) (r : Refusal) : raise e s ≠ .refused r := by
  cases e <;> simp [raise]

/-- A raised error is a fault that carries R185's outputs. -/
theorem raise_eq (e : CmdError) (s : State) :
    ∃ f, raise e s = .fault f ∧ faultOuts f = some (faultOutputs e s.inp) := by
  cases e <;> exact ⟨_, rfl, rfl⟩

theorem withByteForm_ok {s : State} (out : Outputs) (h : s.cfg.P + s.cfg.S ≤ 8) :
    withByteForm s out = .next { s with out := out } := by
  simp [withByteForm, byteFormsOk, h, complete]

theorem withByteForm_range {s : State} (out : Outputs) (h : 8 < s.cfg.P + s.cfg.S) :
    withByteForm s out = raise .range s := by
  simp [withByteForm, byteFormsOk, show ¬ s.cfg.P + s.cfg.S ≤ 8 by omega]

theorem withBufField_ok {s : State} {boff : BitVec 16} (out : Outputs)
    (h : s.cfg.P + 8 * boff.toNat + s.cfg.S ≤ 8 * s.cfg.N) :
    withBufField s boff out = .next { s with out := out } := by
  simp [withBufField, bufFits, fieldEnd, h, complete]

theorem withBufField_range {s : State} {boff : BitVec 16} (out : Outputs)
    (h : 8 * s.cfg.N < s.cfg.P + 8 * boff.toNat + s.cfg.S) : withBufField s boff out = raise .range s := by
  simp [withBufField, bufFits, fieldEnd, show ¬ s.cfg.P + 8 * boff.toNat + s.cfg.S ≤ 8 * s.cfg.N by omega]

theorem withSetbuf_present {s : State} {boff : BitVec 16} (out : Outputs) (h : s.cfg.hasSetbuf = true) :
    withSetbuf s boff out = withBufField s boff out := by
  simp [withSetbuf, h]

theorem withSetbuf_absent {s : State} {boff : BitVec 16} (out : Outputs) (h : s.cfg.hasSetbuf = false) :
    withSetbuf s boff out = raise .illegalOp s := by
  simp [withSetbuf, h]

/-- The byte forms answer in one of two ways. -/
theorem withByteForm_cases (s : State) (out : Outputs) :
    (s.cfg.P + s.cfg.S ≤ 8 ∧ withByteForm s out = .next { s with out := out }) ∨
      (8 < s.cfg.P + s.cfg.S ∧ withByteForm s out = raise .range s) := by
  rcases le_or_gt (s.cfg.P + s.cfg.S) 8 with h | h
  · exact .inl ⟨h, withByteForm_ok out h⟩
  · exact .inr ⟨h, withByteForm_range out h⟩

/-- The buffer forms answer in one of two ways. -/
theorem withBufField_cases (s : State) (boff : BitVec 16) (out : Outputs) :
    (s.cfg.P + 8 * boff.toNat + s.cfg.S ≤ 8 * s.cfg.N ∧ withBufField s boff out = .next { s with out := out }) ∨
      (8 * s.cfg.N < s.cfg.P + 8 * boff.toNat + s.cfg.S ∧ withBufField s boff out = raise .range s) := by
  rcases le_or_gt (s.cfg.P + 8 * boff.toNat + s.cfg.S) (8 * s.cfg.N) with h | h
  · exact .inl ⟨h, withBufField_ok out h⟩
  · exact .inr ⟨h, withBufField_range out h⟩

/-- SETBUF answers in one of three ways. -/
theorem withSetbuf_cases (s : State) (boff : BitVec 16) (out : Outputs) :
    (s.cfg.hasSetbuf = true ∧ s.cfg.P + 8 * boff.toNat + s.cfg.S ≤ 8 * s.cfg.N ∧
        withSetbuf s boff out = .next { s with out := out }) ∨
      (s.cfg.hasSetbuf = true ∧ 8 * s.cfg.N < s.cfg.P + 8 * boff.toNat + s.cfg.S ∧
        withSetbuf s boff out = raise .range s) ∨
      (s.cfg.hasSetbuf = false ∧ withSetbuf s boff out = raise .illegalOp s) := by
  cases h : s.cfg.hasSetbuf with
  | false => exact .inr (.inr ⟨rfl, withSetbuf_absent out h⟩)
  | true =>
    rw [withSetbuf_present out h]
    rcases withBufField_cases s boff out with ⟨a, b⟩ | ⟨a, b⟩
    · exact .inl ⟨rfl, a, b⟩
    · exact .inr (.inl ⟨rfl, a, b⟩)

/-- The outputs a command drives when nothing is wrong, whatever the checks say. -/
def drives (i : Instr) (s : State) : Outputs :=
  match i with
  | .getbLsb => valueOutputs s ((s.inp.byteIn.toNat >>> s.cfg.P) &&& mask s.cfg.S)
  | .setbLsb => byteOutputs s
      ((s.inp.byteIn &&& ~~~(BitVec.ofNat 8 (mask s.cfg.S <<< s.cfg.P)))
        ||| BitVec.ofNat 8 ((s.inp.valueIn &&& mask s.cfg.S) <<< s.cfg.P))
  | .getbufLsb boff => valueOutputs s
      (gather (fun d => streamBit s.inp.bufIn (fieldBase s.cfg boff + d)) s.cfg.S)
  | .setbufLsb boff => bufOutputs s
      (scatterBuf (fun d => fieldBase s.cfg boff + d) s.inp.valueIn s.cfg.S s.inp.bufIn)
  | .getbMsb => valueOutputs s
      (gather (fun d => s.inp.byteIn.getLsbD (s.cfg.P + s.cfg.S - 1 - d)) s.cfg.S)
  | .setbMsb => byteOutputs s
      (scatterByte (fun p => s.cfg.P + s.cfg.S - 1 - p) s.inp.valueIn s.cfg.S s.inp.byteIn)
  | .getbufMsb boff => valueOutputs s
      (gather (fun d => streamBit s.inp.bufIn (fieldEnd s.cfg boff - d - 1)) s.cfg.S)
  | .setbufMsb boff => bufOutputs s
      (scatterBuf (fun d => fieldEnd s.cfg boff - d - 1) s.inp.valueIn s.cfg.S s.inp.bufIn)
  | .bitcopy didx sidx => byteOutputs s (bitCopy s.inp.byteIn didx.toNat s.inp.srcIn sidx.toNat)

/-- When a command completes (R13, R181, R183). -/
def completes (i : Instr) (cfg : Config) : Prop :=
  match i with
  | .getbLsb => cfg.P + cfg.S ≤ 8
  | .setbLsb => cfg.P + cfg.S ≤ 8
  | .getbufLsb boff => cfg.P + 8 * boff.toNat + cfg.S ≤ 8 * cfg.N
  | .setbufLsb boff => cfg.hasSetbuf = true ∧ cfg.P + 8 * boff.toNat + cfg.S ≤ 8 * cfg.N
  | .getbMsb => cfg.P + cfg.S ≤ 8
  | .setbMsb => cfg.P + cfg.S ≤ 8
  | .getbufMsb boff => cfg.P + 8 * boff.toNat + cfg.S ≤ 8 * cfg.N
  | .setbufMsb boff => cfg.hasSetbuf = true ∧ cfg.P + 8 * boff.toNat + cfg.S ≤ 8 * cfg.N
  | .bitcopy _ _ => True

/-- Everything a command can answer: its outputs where it completes, else RANGE or ILLEGAL_OP. -/
theorem exec_cases (i : Instr) (s : State) :
    (completes i s.cfg ∧ exec i s = .next { s with out := drives i s }) ∨
      (¬ completes i s.cfg ∧ (exec i s = raise .range s ∨ (i.isSetbuf = true ∧ exec i s = raise .illegalOp s))) := by
  cases i with
  | getbLsb =>
    rcases withByteForm_cases s (drives .getbLsb s) with ⟨a, b⟩ | ⟨a, b⟩
    · exact .inl ⟨a, b⟩
    · exact .inr ⟨Nat.not_le.mpr a, .inl b⟩
  | setbLsb =>
    rcases withByteForm_cases s (drives .setbLsb s) with ⟨a, b⟩ | ⟨a, b⟩
    · exact .inl ⟨a, b⟩
    · exact .inr ⟨Nat.not_le.mpr a, .inl b⟩
  | getbufLsb boff =>
    rcases withBufField_cases s boff (drives (.getbufLsb boff) s) with ⟨a, b⟩ | ⟨a, b⟩
    · exact .inl ⟨a, b⟩
    · exact .inr ⟨Nat.not_le.mpr a, .inl b⟩
  | setbufLsb boff =>
    rcases withSetbuf_cases s boff (drives (.setbufLsb boff) s) with ⟨h, a, b⟩ | ⟨_, a, b⟩ | ⟨h, b⟩
    · exact .inl ⟨⟨h, a⟩, b⟩
    · exact .inr ⟨fun c => Nat.not_le.mpr a c.2, .inl b⟩
    · exact .inr ⟨fun c => Bool.false_ne_true (h.symm.trans c.1), .inr ⟨rfl, b⟩⟩
  | getbMsb =>
    rcases withByteForm_cases s (drives .getbMsb s) with ⟨a, b⟩ | ⟨a, b⟩
    · exact .inl ⟨a, b⟩
    · exact .inr ⟨Nat.not_le.mpr a, .inl b⟩
  | setbMsb =>
    rcases withByteForm_cases s (drives .setbMsb s) with ⟨a, b⟩ | ⟨a, b⟩
    · exact .inl ⟨a, b⟩
    · exact .inr ⟨Nat.not_le.mpr a, .inl b⟩
  | getbufMsb boff =>
    rcases withBufField_cases s boff (drives (.getbufMsb boff) s) with ⟨a, b⟩ | ⟨a, b⟩
    · exact .inl ⟨a, b⟩
    · exact .inr ⟨Nat.not_le.mpr a, .inl b⟩
  | setbufMsb boff =>
    rcases withSetbuf_cases s boff (drives (.setbufMsb boff) s) with ⟨h, a, b⟩ | ⟨_, a, b⟩ | ⟨h, b⟩
    · exact .inl ⟨⟨h, a⟩, b⟩
    · exact .inr ⟨fun c => Nat.not_le.mpr a c.2, .inl b⟩
    · exact .inr ⟨fun c => Bool.false_ne_true (h.symm.trans c.1), .inr ⟨rfl, b⟩⟩
  | bitcopy didx sidx => exact .inl ⟨trivial, rfl⟩

/-- A command that completes drives its outputs and changes nothing else (R28). -/
theorem exec_next {i : Instr} {s t : State} (h : exec i s = .next t) :
    completes i s.cfg ∧ t = { s with out := drives i s } := by
  rcases exec_cases i s with ⟨a, b⟩ | ⟨_, b | ⟨_, b⟩⟩ <;> rw [b] at h
  · cases h; exact ⟨a, rfl⟩
  · exact absurd h (raise_ne_next _ _ _)
  · exact absurd h (raise_ne_next _ _ _)

/-- What a command drives depends on the configuration and the inputs alone (R27). -/
theorem drives_congr (i : Instr) {s s' : State} (hc : s'.cfg = s.cfg) (hi : s'.inp = s.inp) : drives i s' = drives i s := by
  cases i <;> simp only [drives, valueOutputs, byteOutputs, bufOutputs, hc, hi]

/-- Whether a command completes, or which error it raises, depends on the configuration and the inputs alone (R27). -/
theorem exec_congr (i : Instr) {s s' : State} (hc : s'.cfg = s.cfg) (hi : s'.inp = s.inp) :
    (exec i s = .next { s with out := drives i s } ∧ exec i s' = .next { s' with out := drives i s }) ∨
      ∃ e, exec i s = raise e s ∧ exec i s' = raise e s' := by
  rw [← drives_congr i hc hi]
  cases i with
  | bitcopy didx sidx => exact .inl ⟨by rw [drives_congr _ hc hi]; rfl, rfl⟩
  | _ =>
    simp only [exec, execGetbLsb, execSetbLsb, execGetbufLsb, execSetbufLsb, execGetbMsb, execSetbMsb, execGetbufMsb,
      execSetbufMsb, withByteForm, withBufField, withSetbuf, complete, drives, valueOutputs, byteOutputs, bufOutputs,
      hc, hi]
    split_ifs <;> first | exact .inl ⟨rfl, rfl⟩ | exact .inr ⟨_, rfl, rfl⟩

end Sys2Proof.Machine
end

