-- ==== Sys2Proof/Laws/PerInstr.lean ====
section
/-! SUPPORT. One family of lemmas over all commands, about their words (30_encoding.md R74): every reserved field, and
every field the command does not use, is zero. -/

namespace Sys2Proof.Laws.UnusedFields

open Sys2Proof

/-- The fields R74 marks "0" are zero in the command's word. -/
def Statement (i : Instr) : Prop :=
  rsv0Of (encode i) = 0#5 ∧ rsv1Of (encode i) = 0#1 ∧ rsv2Of (encode i) = 0#1 ∧
    (opWithoutIndices (opOf (encode i)) = true → didxOf (encode i) = 0#3 ∧ sidxOf (encode i) = 0#3) ∧
    (opWithoutOffset (opOf (encode i)) = true → boffOf (encode i) = 0#16)

theorem getbLsb : Statement .getbLsb := by simp [Statement, encode]
theorem setbLsb : Statement .setbLsb := by simp [Statement, encode]
theorem getbufLsb (boff : BitVec 16) : Statement (.getbufLsb boff) := by simp [Statement, encode, opWithoutOffset]
theorem setbufLsb (boff : BitVec 16) : Statement (.setbufLsb boff) := by simp [Statement, encode, opWithoutOffset]
theorem getbMsb : Statement .getbMsb := by simp [Statement, encode]
theorem setbMsb : Statement .setbMsb := by simp [Statement, encode]
theorem getbufMsb (boff : BitVec 16) : Statement (.getbufMsb boff) := by simp [Statement, encode, opWithoutOffset]
theorem setbufMsb (boff : BitVec 16) : Statement (.setbufMsb boff) := by simp [Statement, encode, opWithoutOffset]
theorem bitcopy (didx sidx : BitVec 3) : Statement (.bitcopy didx sidx) := by simp [Statement, encode, opWithoutIndices]

end Sys2Proof.Laws.UnusedFields
end

