-- ==== Sys2Proof/Laws/Step.lean ====
section
/-! SUPPORT. What recording an access, an issue and a step can answer, said once. -/

namespace Sys2Proof.Machine

open Sys2Proof

theorem andThen_next {r : Result} {f : State → Result} {t : State} (h : andThen r f = .next t) :
    ∃ s, r = .next s ∧ f s = .next t := by
  cases r with
  | next s => exact ⟨s, rfl, h⟩
  | fault e => cases h
  | refused e => cases h

/-- An access that is recorded races with none, and only the record changes. -/
theorem note_next {a : Access} {s t : State} (h : note a s = .next t) :
    s.accesses.any (conflict a) = false ∧
      t = { s with accesses := if a ∈ s.accesses then s.accesses else a :: s.accesses } := by
  simp only [note] at h
  split at h
  · cases h
  · rename_i hc
    refine ⟨by simpa using hc, ?_⟩
    cases h; rfl

theorem note_fault {a : Access} {s : State} {f : Fault} (h : note a s = .fault f) :
    f = .race ∧ s.accesses.any (conflict a) = true := by
  simp only [note] at h
  split at h
  · rename_i hc
    cases h; exact ⟨rfl, hc⟩
  · cases h

/-- Recording changes the record alone. -/
theorem noteAll_next {as : List Access} : ∀ {s t : State}, noteAll as s = .next t →
    t = { s with accesses := t.accesses } := by
  induction as with
  | nil => intro s t h; cases h; rfl
  | cons a as ih =>
    intro s t h
    obtain ⟨u, hu, ht⟩ := andThen_next h
    rw [ih ht, (note_next hu).2]

/-- What the record holds after several accesses: exactly what it held and these. -/
theorem noteAll_mem {as : List Access} : ∀ {s t : State}, noteAll as s = .next t →
    ∀ a, a ∈ t.accesses ↔ a ∈ s.accesses ∨ a ∈ as := by
  induction as with
  | nil => intro s t h a; cases h; simp
  | cons b as ih =>
    intro s t h a
    obtain ⟨u, hu, ht⟩ := andThen_next h
    rw [ih ht a, (note_next hu).2]
    by_cases hb : b ∈ s.accesses
    · simp only [if_pos hb, List.mem_cons]
      constructor
      · rintro (h | h)
        · exact .inl h
        · exact .inr (.inr h)
      · rintro (h | rfl | h)
        · exact .inl h
        · exact .inl hb
        · exact .inr h
    · simp only [if_neg hb, List.mem_cons]
      tauto

/-- Two uses race exactly if two agents share a byte and one of them writes it back (R215). -/
theorem conflict_iff (a b : Access) : conflict a b = true ↔
    a.agent ≠ b.agent ∧ (∃ x, a.lo ≤ x ∧ x < a.hi ∧ b.lo ≤ x ∧ x < b.hi) ∧ (a.writesBack = true ∨ b.writesBack = true) := by
  have h : max a.lo b.lo < min a.hi b.hi ↔ ∃ x, a.lo ≤ x ∧ x < a.hi ∧ b.lo ≤ x ∧ x < b.hi := by
    constructor
    · intro h; exact ⟨max a.lo b.lo, by omega, by omega, by omega, by omega⟩
    · rintro ⟨x, h⟩; omega
  simp [conflict, h, and_assoc]

/-- Accesses of one agent: they are recorded, or one of them races with an access recorded before, and then the outcome is
the race. -/
theorem noteAll_cases {as : List Access} {n : Nat} : ∀ {s : State}, (∀ a ∈ as, a.agent = n) →
    ((∀ a ∈ as, ∀ b ∈ s.accesses, conflict a b = false) ∧ ∃ t, noteAll as s = .next t) ∨
      ((∃ a ∈ as, ∃ b ∈ s.accesses, conflict a b = true) ∧ noteAll as s = .fault .race) := by
  induction as with
  | nil => intro s _; exact .inl ⟨by simp, s, rfl⟩
  | cons a as ih =>
    intro s ha
    have hself : ∀ b ∈ as, conflict b a = false := by
      intro b hb
      simp [conflict, ha a (by simp), ha b (by simp [hb])]
    cases hc : s.accesses.any (conflict a) with
    | true =>
      obtain ⟨b, hb, hab⟩ := List.any_eq_true.mp hc
      exact .inr ⟨⟨a, by simp, b, hb, hab⟩, by simp [noteAll, note, hc, andThen]⟩
    | false =>
      have hno : ∀ b ∈ s.accesses, conflict a b = false := by simpa using hc
      have e : noteAll (a :: as) s =
          noteAll as { s with accesses := if a ∈ s.accesses then s.accesses else a :: s.accesses } := by
        simp [noteAll, note, hc, andThen]
      have hmem : ∀ b, b ∈ (if a ∈ s.accesses then s.accesses else a :: s.accesses) ↔ b ∈ s.accesses ∨ b = a := by
        intro b; split
        · rename_i hin
          exact ⟨.inl, fun h => h.elim id (fun h => h ▸ hin)⟩
        · simp [or_comm]
      rw [e]
      rcases ih (s := { s with accesses := if a ∈ s.accesses then s.accesses else a :: s.accesses })
        (fun b hb => ha b (by simp [hb])) with ⟨h, t, ht⟩ | ⟨⟨c, hcm, b, hb, hcb⟩, ht⟩
      · refine .inl ⟨?_, t, ht⟩
        intro c hcm b hb
        rcases List.mem_cons.mp hcm with rfl | hcm
        · exact hno b hb
        · exact h c hcm b ((hmem b).mpr (.inl hb))
      · refine .inr ⟨⟨c, by simp [hcm], b, ?_, hcb⟩, ht⟩
        rcases (hmem b).mp hb with hb | rfl
        · exact hb
        · rw [hself c hcm] at hcb; cases hcb

theorem readFrom_own (s : State) (src : Option Nat) (lo hi : Nat) :
    ∀ a ∈ readFrom s src lo hi, a.agent = s.agent ∧ a.writesBack = false := by
  cases src <;> simp [readFrom]

/-- What a command reads it reads as the present thread, and it writes nothing back. -/
theorem accessesOf_own (s : State) (i : Instr) : ∀ a ∈ accessesOf s i, a.agent = s.agent ∧ a.writesBack = false := by
  cases i with
  | bitcopy d k =>
    intro a ha
    rcases List.mem_append.mp ha with h | h <;> exact readFrom_own _ _ _ _ a h
  | _ => exact readFrom_own _ _ _ _

/-- An issue that completes ran the command decoded on the inputs sampled, and recorded what it read. -/
theorem issueSampled_next {s t : State} (h : issueSampled s = .next t) :
    ∃ i, decode s.cfg s.inp.cmd = .ok i ∧ completes i s.cfg ∧
      t = { s with out := drives i s, outOf := s.cfg, accesses := t.accesses } ∧
      ∀ a, a ∈ t.accesses ↔ a ∈ s.accesses ∨ a ∈ accessesOf s i := by
  simp only [issueSampled] at h
  split at h
  · exact absurd h (raise_ne_next _ _ _)
  · rename_i i hd
    obtain ⟨u, hu, ht⟩ := andThen_next h
    obtain ⟨hc, rfl⟩ := exec_next hu
    have hm := noteAll_mem ht
    exact ⟨i, hd, hc, noteAll_next ht, hm⟩

/-- A store that completes writes its bytes and records itself. -/
theorem store_next {a : Nat} {bs : List Byte} {s t : State} (h : store a bs s = .next t) :
    t = { s with mem := storeBytes s.mem a bs, accesses := t.accesses } ∧
      ∀ x, x ∈ t.accesses ↔ x ∈ s.accesses ∨ x = useOf s a bs.length true := by
  have h' : noteAll [useOf s a bs.length true] (storeOp a bs s) = .next t := by
    show andThen (note (useOf s a bs.length true) (storeOp a bs s)) (noteAll []) = .next t
    rw [show note (useOf s a bs.length true) (storeOp a bs s) = .next t from h]; rfl
  exact ⟨noteAll_next h', by simpa using noteAll_mem h'⟩

/-- A host that goes on after an error has its outputs, and nothing else has changed. -/
theorem goOnReading_next {s t : State} {r : Result} (h : goOnReading s r = .next t) :
    r = .next t ∨ ∃ f out, r = .fault f ∧ faultOuts f = some out ∧
      t = { s with out := out, outOf := s.cfg, pending := s.pending.tail } := by
  cases r with
  | next u => exact .inl h
  | refused e => cases h
  | fault f =>
    simp only [goOnReading] at h
    split at h
    · rename_i out ho
      cases h; exact .inr ⟨f, out, rfl, ho, rfl⟩
    · cases h

/-- After thread `n`'s turn has come, every thread is as it was (R192). -/
theorem threadOf_turnTo (n m : Nat) (s : State) : threadOf (turnTo n s) m = threadOf s m := by
  simp only [threadOf, allThreads, turnTo_toThread, turnTo_agent, turnTo_parked, read?_write, read?_filter_ne]
  by_cases h : m = n
  · subst h; simp
  · simp [h]

/-- Everything a step can be: an issue, or the host's next action. -/
theorem step_eq (s : State) :
    (s.pending = [] ∧ step s = issue s) ∨
      ∃ a rest, s.pending = a :: rest ∧ step s = hostAct a { s with pending := rest } := by
  cases h : s.pending with
  | nil => exact .inl ⟨rfl, by simp [step, h]⟩
  | cons a rest => exact .inr ⟨a, rest, rfl, by simp [step, h]⟩

/-- An issue the host asks for, and the one a step makes with nothing pending, are the same issue. -/
theorem step_issue {s : State} {rest : List HostAction} (h : (s.pending = [] ∧ rest = []) ∨ s.pending = .issue :: rest) :
    step s = issue { s with pending := rest } := by
  rcases h with ⟨h, rfl⟩ | h
  · rw [show ({ s with pending := [] } : State) = s by rw [← h]]
    simp [step, h]
  · simp [step, h, hostAct]

/-- Elaboration answers an instance exactly for a legal configuration, and the instance has it. -/
theorem elaborate_ok {p : Params} {cfg : Config} (h : elaborate p = .ok cfg) : p.Legal ∧ cfg.toParams = p := by
  simp only [elaborate] at h
  split at h
  · rename_i hl
    cases h; exact ⟨hl, rfl⟩
  · cases h

end Sys2Proof.Machine
end

