-- ==== Sys2Proof/Tests/Slice0.lean ====
section
/-! SUPPORT. Small tests, their expected results from 95_test_vectors.md and 30_encoding.md R80, each about one step; and a
witness for each statement's hypotheses. -/

namespace Sys2Proof.Tests

open Sys2Proof Sys2Proof.Machine

/-! ### Instances and states of 95_test_vectors.md -/

def c808 (o : Order) : Config := { W := 8, P := 0, S := 8, order := o, N := 1, legal := by cases o <;> decide }
def c823 (o : Order) : Config := { W := 8, P := 2, S := 3, order := o, N := 1, legal := by cases o <;> decide }
def c804 (o : Order) : Config := { W := 8, P := 0, S := 4, order := o, N := 1, legal := by cases o <;> decide }
def c844 (o : Order) : Config := { W := 8, P := 4, S := 4, order := o, N := 1, legal := by cases o <;> decide }
def c854 (o : Order) : Config := { W := 8, P := 5, S := 4, order := o, N := 2, legal := by cases o <;> decide }
def c131 (o : Order) : Config := { W := 1, P := 3, S := 1, order := o, N := 1, legal := by cases o <;> decide }
def c179 (o : Order) : Config := { W := 16, P := 7, S := 9, order := o, N := 3, legal := by cases o <;> decide }
def c1616 (o : Order) : Config := { W := 16, P := 0, S := 16, order := o, N := 2, legal := by cases o <;> decide }
def noSetbuf (o : Order) : Config :=
  { W := 16, P := 7, S := 9, order := o, N := 3, hasSetbuf := false, legal := by cases o <;> decide }

/-- No input comes from the host's memory or variables. -/
def noSource : Sources := { byte := none, src := none, buf := none, value := none }

/-- A state whose inputs are all driven, with no host action pending. -/
def st (cfg : Config) (cmd : CmdWord) (byteIn srcIn : Byte) (buf : List Byte) (valueIn : Nat) : State :=
  { cfg := cfg
    inp := { cmd := cmd, byteIn := byteIn, srcIn := srcIn, bufIn := Memory.ofBytes buf, valueIn := valueIn }
    source := noSource
    out := { valueOut := 0, byteOut := 0#8, bufOut := [], errCode := 0#2 }
    outOf := cfg
    vars := []
    agent := 0
    parked := []
    mem := []
    pending := []
    accesses := [] }

/-- The next state. -/
def nextOf : Result → Option State
  | .next t => some t
  | .fault _ => none
  | .refused _ => none

/-- The outputs of a next state. -/
def outOf : Result → Option Outputs
  | .next t => some t.out
  | .fault _ => none
  | .refused _ => none

/-- The fault of a stop. -/
def faultOf : Result → Option Fault
  | .next _ => none
  | .fault f => some f
  | .refused _ => none

/-! ### Well-formedness: an ill-formed term for each check -/

theorem test_wellFormed_own_order : Instr.WellFormed (c179 .lsb) (.setbufLsb 1#16) := by decide
theorem test_illFormed_other_order : ¬ Instr.WellFormed (c179 .lsb) .getbMsb := by decide
theorem test_illFormed_absent_setbuf : ¬ Instr.WellFormed (noSetbuf .lsb) (.setbufLsb 0#16) := by decide

/-! ### Elaboration (section 2.5) -/

theorem test_elaborate_sizeZero : configError { W := 8, P := 0, S := 0, order := .lsb, N := 1 } = some .sizeZero := by decide
theorem test_elaborate_sizeExceedsValue :
    configError { W := 8, P := 0, S := 9, order := .lsb, N := 2 } = some .sizeExceedsValue := by decide
theorem test_elaborate_fieldExceedsBuffer :
    configError { W := 8, P := 5, S := 4, order := .lsb, N := 1 } = some .fieldExceedsBuffer := by decide
theorem test_elaborate_bufferLength :
    configError { W := 16, P := 0, S := 8, order := .lsb, N := 0 } = some .bufferLength := by decide
theorem test_elaborate_valueWidthZero :
    configError { W := 0, P := 0, S := 1, order := .lsb, N := 1 } = some .valueWidthZero := by decide
theorem test_elaborate_boolean_like : Params.Legal { W := 1, P := 0, S := 1, order := .msb, N := 1 } := by decide

/-! ### Decoding words written out from R71 and R80 -/

theorem test_decode_getb_lsb : decode (c179 .lsb) 0b00000000000000000000000000000001#32 = .ok .getbLsb := by decide
theorem test_decode_setb_lsb : decode (c179 .lsb) 0b00000000000000000000000000000010#32 = .ok .setbLsb := by decide
theorem test_decode_getbuf_lsb :
    decode (c179 .lsb) 0b00000000000000010000000000000011#32 = .ok (.getbufLsb 1#16) := by decide
theorem test_decode_setbuf_lsb :
    decode (c179 .lsb) 0b10000000000000000000000000000100#32 = .ok (.setbufLsb 0x8000#16) := by decide
theorem test_decode_getb_msb : decode (c179 .msb) 0b00000000000000000000000000000001#32 = .ok .getbMsb := by decide
theorem test_decode_setb_msb : decode (c179 .msb) 0b00000000000000000000000000000010#32 = .ok .setbMsb := by decide
theorem test_decode_getbuf_msb :
    decode (c179 .msb) 0b00000000000000100000000000000011#32 = .ok (.getbufMsb 2#16) := by decide
theorem test_decode_setbuf_msb :
    decode (c179 .msb) 0b00000000000000010000000000000100#32 = .ok (.setbufMsb 1#16) := by decide
theorem test_decode_bitcopy :
    decode (c179 .msb) 0b00000000000000000011011100000101#32 = .ok (.bitcopy 7#3 3#3) := by decide
theorem test_decode_absent_setbuf : decode (noSetbuf .lsb) 0x00000004#32 = .error .illegalOp := by decide
theorem test_decode_illegal_wins : decode (c808 .lsb) 0xFFFFFFFF#32 = .error .illegalOp := by decide
theorem test_decode_reserved_wins : decode (c179 .lsb) 0x0009000B#32 = .error .rsvdField := by decide
theorem test_decode_bitcopy_offset : decode (c808 .lsb) 0x00011105#32 = .error .rsvdField := by decide
theorem test_decode_getb_index : decode (c808 .lsb) 0x00000101#32 = .error .rsvdField := by decide
theorem test_decode_row : decodeTableWord 32 0x00003705 = some (.bitcopy 7#3 3#3) := by decide
theorem test_asm_bitcopy : asmText (.bitcopy 7#3 3#3) = "BITCOPY 7, 3" := by decide
theorem test_asm_getbuf : asmText (.getbuf (some 1#16)) = "GETBUF 1" := by decide

theorem test_parse_bitcopy : parseAsm "BITCOPY 7, 3" = some (.bitcopy 7#3 3#3) := by decide
theorem test_parse_getbuf_hex : parseAsm "GETBUF 0xFFFF" = some (.getbuf (some 0xFFFF#16)) := by decide
theorem test_parse_setbuf_default : parseAsm "SETBUF" = some (.setbuf none) := by decide
theorem test_parse_rejects_offset : parseAsm "GETBUF 65536" = none := by decide

/-! ### Commands (sections 1 and 2) -/

theorem test_getb_lsb_boundary :
    (outOf (step (st (c844 .lsb) 0x1#32 0xA3#8 0#8 [0#8] 0))).map Outputs.valueOut = some 0xA := by decide
theorem test_getb_lsb_range : faultOf (step (st (c854 .lsb) 0x1#32 0xFF#8 0#8 [] 0)) =
    some (.range { valueOut := 0, byteOut := 0xFF#8, bufOut := [], errCode := 3#2 }) := by decide
theorem test_setb_lsb_clears :
    (outOf (step (st (c823 .lsb) 0x2#32 0xFF#8 0#8 [0#8] 0))).map Outputs.byteOut = some 0xE3#8 := by decide
theorem test_setb_lsb_ignores_high_bits :
    (outOf (step (st (c823 .lsb) 0x2#32 0x00#8 0#8 [0#8] 0xFF))).map Outputs.byteOut = some 0x1C#8 := by decide
theorem test_getbuf_lsb_crosses_bytes :
    (outOf (step (st (c179 .lsb) 0x3#32 0#8 0#8 [0x02#8, 0x21#8, 0x80#8] 0))).map Outputs.valueOut = some 0x042 := by decide
theorem test_getbuf_lsb_ends_at_the_end :
    (outOf (step (st (c179 .lsb) 0x10003#32 0#8 0#8 [0x02#8, 0x21#8, 0x80#8] 0))).map Outputs.valueOut = some 0x100 := by
  decide
theorem test_setbuf_lsb_keeps_the_rest :
    (outOf (step (st (c179 .lsb) 0x4#32 0#8 0#8 [0xFF#8, 0xFF#8, 0xFF#8] 0x042))).map Outputs.bufOut =
      some (Memory.ofBytes [0x7F#8, 0x21#8, 0xFF#8]) := by decide
theorem test_setbuf_lsb_offset :
    (outOf (step (st (c179 .lsb) 0x10004#32 0#8 0#8 [0x02#8, 0x21#8, 0x80#8] 0x042))).map Outputs.bufOut =
      some (Memory.ofBytes [0x02#8, 0x21#8, 0x21#8]) := by decide
theorem test_getb_msb_reverses :
    (outOf (step (st (c808 .msb) 0x1#32 0xB1#8 0#8 [0#8] 0))).map Outputs.valueOut = some 0x8D := by decide
theorem test_getb_msb_boolean_like :
    (outOf (step (st (c131 .msb) 0x1#32 0x08#8 0#8 [0#8] 0))).map Outputs.valueOut = some 1 := by decide
theorem test_setb_msb_scenario :
    (outOf (step (st (c804 .msb) 0x2#32 0xA3#8 0#8 [0#8] 5))).map Outputs.byteOut = some 0xAA#8 := by decide
theorem test_setb_msb_inner :
    (outOf (step (st (c823 .msb) 0x2#32 0x00#8 0#8 [0#8] 1))).map Outputs.byteOut = some 0x10#8 := by decide
theorem test_getbuf_msb_crosses_bytes :
    (outOf (step (st (c179 .msb) 0x3#32 0#8 0#8 [0x02#8, 0x21#8, 0x80#8] 0))).map Outputs.valueOut = some 0x084 := by decide
theorem test_getbuf_msb_whole :
    (outOf (step (st (c1616 .msb) 0x3#32 0#8 0#8 [0x34#8, 0x12#8] 0))).map Outputs.valueOut = some 0x2C48 := by decide
theorem test_setbuf_msb_offset :
    (outOf (step (st (c179 .msb) 0x10004#32 0#8 0#8 [0x02#8, 0x21#8, 0x80#8] 0x042))).map Outputs.bufOut =
      some (Memory.ofBytes [0x02#8, 0x21#8, 0x42#8]) := by decide
theorem test_setbuf_msb_bit0_on_top :
    (outOf (step (st (c179 .msb) 0x4#32 0#8 0#8 [0#8, 0#8, 0#8] 0xFE01))).map Outputs.bufOut =
      some (Memory.ofBytes [0x00#8, 0x80#8, 0x00#8]) := by decide
theorem test_bitcopy_bottom :
    (outOf (step (st (c808 .lsb) 0x7005#32 0x5A#8 0x80#8 [0#8] 0))).map Outputs.byteOut = some 0x5B#8 := by decide
theorem test_bitcopy_top :
    (outOf (step (st (c808 .msb) 0x3705#32 0xFF#8 0x00#8 [0#8] 0))).map Outputs.byteOut = some 0x7F#8 := by decide

/-! ### Errors, the host's side, reset -/

theorem test_absent_setbuf_faults : faultOf (step (st (noSetbuf .msb) 0x4#32 0#8 0#8 [] 1)) =
    some (.illegalOp { valueOut := 0, byteOut := 0#8, bufOut := [], errCode := 1#2 }) := by decide
theorem test_read_err_code_goes_on :
    (outOf (stepReading { st (c854 .lsb) 0x1#32 0xFF#8 0#8 [] 0 with pending := [.issue] })).map Outputs.errCode =
      some 3#2 := by decide
theorem test_error_of_an_issue_action_is_a_fault :
    (faultOf (step { st (c854 .lsb) 0x1#32 0xFF#8 0#8 [] 0 with pending := [.issue] })).isSome = true := by decide
theorem test_reset_step_is_illegal : (faultOf (step State.reset)).isSome = true := by decide
theorem test_reset_runs_getb : (outOf (step (State.reset.withFetchWord 32 0x1))).isSome = true := by decide
theorem test_reset_runs_setbuf : (outOf (step (State.reset.withFetchWord 32 0xFFFF0004))).isSome = true := by decide
theorem test_reset_runs_bitcopy : (outOf (step (State.reset.withFetchWord 32 0x3705))).isSome = true := by decide
/-- Program P2 of 95_test_vectors.md, line 2: its actions, and its issue and store with B at address 100. -/
def p2line2 : HostLine :=
  { dst := some 100, inst := some (c179 .lsb).toParams, command := .setbuf (some 1#16), byteIn := none, srcIn := none,
    bufIn := some (.host 100), valueIn := some (.host 7) }
theorem test_line_actions : p2line2.actions =
    [.select (c179 .lsb).toParams, .driveCmd 0x10004#32, .presentBuf 100, .presentValue 7, .issue, .storeBuf 100] := by
  decide

/-- B = [0x02, 0x21, 0x80] at address 100, v = 0x042 in variable 7, both presented. -/
def sys (o : Order) (cmd : CmdWord) : State :=
  { st (c179 o) cmd 0#8 0#8 [] 0 with
    source := { byte := some 101, src := some 101, buf := some 100, value := some 7 }
    vars := [(7, 0x042)]
    mem := [(100, 0x02#8), (101, 0x21#8), (102, 0x80#8)] }

theorem test_issue_of_the_hosts_buffer :
    (outOf (step (sys .lsb 0x10004#32))).map Outputs.bufOut = some (Memory.ofBytes [0x02#8, 0x21#8, 0x21#8]) := by decide
theorem test_store_of_the_result :
    (nextOf (step { sys .lsb 0x10004#32 with
      out := { valueOut := 0, byteOut := 0#8, bufOut := Memory.ofBytes [0x02#8, 0x21#8, 0x21#8], errCode := 0#2 }
      pending := [.storeBuf 100] })).map State.mem = some [(100, 0x02#8), (101, 0x21#8), (102, 0x21#8)] := by decide
/-- P5's `x <- a`: a at address 5, x at address 9. -/
theorem test_copy_of_a_byte :
    (nextOf (step { st (c804 .lsb) 0#32 0#8 0#8 [] 0 with
      mem := [(5, 0x05#8), (6, 0xA0#8), (9, 0x00#8)], pending := [.copy 5 9 1] })).map State.mem =
      some [(5, 0x05#8), (6, 0xA0#8), (9, 0x05#8)] := by decide
/-- Turning to an instance with a smaller buffer leaves the host's bytes whole (R28). -/
theorem test_select_keeps_host_bytes :
    (nextOf (step { sys .lsb 0x3#32 with pending := [.select (c804 .lsb).toParams] })).map State.mem =
      some (sys .lsb 0x3#32).mem := by decide

theorem test_store_under_another_agent_races :
    faultOf (step { st (c808 .lsb) 0x2#32 0#8 0#8 [] 0 with
      pending := [.storeByte 9], accesses := [⟨1, 9, 10, false⟩] }) = some .race := by decide
/-- Another agent's write of a buffer that is not the one presented (R61, R192). -/
theorem test_disjoint_buffers_do_not_race :
    (outOf (step { sys .lsb 0x3#32 with accesses := [⟨1, 200, 203, true⟩] })).isSome = true := by decide
/-- Another agent's write of the host's byte that BITCOPY reads as its source. -/
theorem test_source_byte_races :
    faultOf (step { st (c808 .lsb) 0x5#32 0#8 0#8 [] 0 with
      source := { noSource with src := some 9 }, accesses := [⟨1, 9, 10, true⟩] }) = some .race := by decide

/-! ### Witnesses: for each statement, a state and operands that meet its hypotheses, at the edge of their range -/

/-- The state most witnesses use: the field crosses a byte, the buffer ends with the field at offset 1. -/
def w (o : Order) (cmd : CmdWord) : State := st (c179 o) cmd 0x5A#8 0x80#8 [0x02#8, 0x21#8, 0x80#8] 0x042

/-- P + S = 8. -/
def wb (o : Order) (cmd : CmdWord) : State := st (c844 o) cmd 0xA3#8 0x80#8 [0xA3#8] 5

theorem witness_GetbLsbShiftsAndMasks :
    ((wb .lsb 1#32).cfg.P + (wb .lsb 1#32).cfg.S = 8) ∧ 8 < (w .lsb 1#32).cfg.P + (w .lsb 1#32).cfg.S := by decide
theorem witness_SetbLsbWritesTheSpan :
    (wb .lsb 2#32).cfg.P + (wb .lsb 2#32).cfg.S = 8 ∧ (c854 .lsb).P + (c854 .lsb).S = 9 := by decide
theorem witness_GetbufLsbReadsTheSpan :
    (c179 .lsb).P + 8 * (1#16).toNat + (c179 .lsb).S = 8 * (c179 .lsb).N ∧
      8 * (c179 .lsb).N < (c179 .lsb).P + 8 * (2#16).toNat + (c179 .lsb).S := by decide
theorem witness_SetbufLsbWritesTheSpan :
    (c179 .lsb).hasSetbuf = true ∧ (c179 .lsb).P + 8 * (1#16).toNat + (c179 .lsb).S = 8 * (c179 .lsb).N ∧
      8 * (c179 .lsb).N < (c179 .lsb).P + 8 * (2#16).toNat + (c179 .lsb).S ∧ (noSetbuf .lsb).hasSetbuf = false := by decide
theorem witness_GetbMsbReversesTheSpan :
    (c844 .msb).P + (c844 .msb).S = 8 ∧ (c854 .msb).P + (c854 .msb).S = 9 := by decide
theorem witness_SetbMsbWritesTheSpanReversed :
    (wb .msb 2#32).cfg.P + (wb .msb 2#32).cfg.S = 8 ∧ 8 < (w .msb 2#32).cfg.P + (w .msb 2#32).cfg.S := by decide
theorem witness_GetbufMsbReversesTheSpan :
    (c179 .msb).P + 8 * (1#16).toNat + (c179 .msb).S = 8 * (c179 .msb).N ∧
      8 * (c179 .msb).N < (c179 .msb).P + 8 * (2#16).toNat + (c179 .msb).S := by decide
theorem witness_SetbufMsbWritesTheSpanReversed :
    (c179 .msb).hasSetbuf = true ∧ (c179 .msb).P + 8 * (1#16).toNat + (c179 .msb).S = 8 * (c179 .msb).N ∧
      8 * (c179 .msb).N < (c179 .msb).P + 8 * (2#16).toNat + (c179 .msb).S ∧ (noSetbuf .msb).hasSetbuf = false := by decide
theorem witness_BitCopyDefinedByTwoFacts : 7 < 8 ∧ 0 < 8 ∧ bitCopy 0x5A#8 0 0x80#8 7 = 0x5B#8 := by decide
theorem witness_BitCopyComposes : 7 < 8 ∧ 0 < 8 ∧ (7 : Nat) ≠ 0 := by decide
theorem witness_BitCopyOntoItself : 7 < 8 := by decide
theorem witness_LsbByteFormsAreBitByBit : (wb .lsb 1#32).cfg.P + (wb .lsb 1#32).cfg.S ≤ 8 := by decide
theorem witness_LsbByteAndBufferFormsAgree :
    (wb .lsb 1#32).cfg.P + (wb .lsb 1#32).cfg.S ≤ 8 ∧ byteAt (wb .lsb 1#32).inp.bufIn 0 = (wb .lsb 1#32).inp.byteIn ∧
      (wb .lsb 1#32).cfg.hasSetbuf = true := by decide
theorem witness_MsbByteAndBufferFormsAgree :
    (wb .msb 1#32).cfg.P + (wb .msb 1#32).cfg.S ≤ 8 ∧ byteAt (wb .msb 1#32).inp.bufIn 0 = (wb .msb 1#32).inp.byteIn ∧
      (wb .msb 1#32).cfg.hasSetbuf = true := by decide
theorem witness_LsbRoundTrip_byte : (wb .lsb 2#32).inp.valueIn < 2 ^ (wb .lsb 2#32).cfg.S ∧
    (wb .lsb 2#32).cfg.P + (wb .lsb 2#32).cfg.S ≤ 8 := by decide
theorem witness_LsbRoundTrip_buffer : (w .lsb 4#32).inp.valueIn < 2 ^ (w .lsb 4#32).cfg.S ∧
    (w .lsb 4#32).cfg.hasSetbuf = true ∧
      (w .lsb 4#32).cfg.P + 8 * (1#16).toNat + (w .lsb 4#32).cfg.S ≤ 8 * (w .lsb 4#32).cfg.N := by decide
theorem witness_MsbRoundTrip_byte : (wb .msb 2#32).inp.valueIn < 2 ^ (wb .msb 2#32).cfg.S ∧
    (wb .msb 2#32).cfg.P + (wb .msb 2#32).cfg.S ≤ 8 := by decide
theorem witness_MsbRoundTrip_buffer : (w .msb 4#32).inp.valueIn < 2 ^ (w .msb 4#32).cfg.S ∧
    (w .msb 4#32).cfg.hasSetbuf = true ∧
      (w .msb 4#32).cfg.P + 8 * (1#16).toNat + (w .msb 4#32).cfg.S ≤ 8 * (w .msb 4#32).cfg.N := by decide
theorem witness_LsbReverseRoundTrip : (wb .lsb 1#32).cfg.P + (wb .lsb 1#32).cfg.S ≤ 8 ∧
    (w .lsb 3#32).cfg.hasSetbuf = true ∧
      (w .lsb 3#32).cfg.P + 8 * (0#16).toNat + (w .lsb 3#32).cfg.S ≤ 8 * (w .lsb 3#32).cfg.N := by decide
theorem witness_MsbReverseRoundTrip : (wb .msb 1#32).cfg.P + (wb .msb 1#32).cfg.S ≤ 8 ∧
    (w .msb 3#32).cfg.hasSetbuf = true ∧
      (w .msb 3#32).cfg.P + 8 * (0#16).toNat + (w .msb 3#32).cfg.S ≤ 8 * (w .msb 3#32).cfg.N := by decide

/-- The LSB state with the reversed value on `value_in`. -/
def wr (s : State) : State :=
  { s with inp := { s.inp with valueIn := revBits s.cfg.S (s.inp.valueIn &&& (2 ^ s.cfg.S - 1)) } }

theorem witness_MirrorLaw_byte : (wb .lsb 1#32).cfg.order = .lsb ∧
    (wb .msb 1#32).cfg.toParams = { (wb .lsb 1#32).cfg.toParams with order := .msb } ∧
    (wb .msb 1#32).inp = (wb .lsb 1#32).inp ∧ (outOf (exec .getbLsb (wb .lsb 1#32))).isSome = true ∧
    (outOf (exec .setbLsb (wr (wb .lsb 1#32)))).isSome = true := by decide
theorem witness_MirrorLaw_buffer : (w .lsb 3#32).cfg.order = .lsb ∧
    (w .msb 3#32).cfg.toParams = { (w .lsb 3#32).cfg.toParams with order := .msb } ∧
    (w .msb 3#32).inp = (w .lsb 3#32).inp ∧ (outOf (exec (.getbufLsb 1#16) (w .lsb 3#32))).isSome = true ∧
    (outOf (exec (.setbufLsb 1#16) (wr (w .lsb 3#32)))).isSome = true := by decide
theorem witness_WidthOneOrdersAgree : (st (c131 .lsb) 1#32 8#8 0#8 [0#8] 1).cfg.order = .lsb ∧
    (c131 .msb).toParams = { (c131 .lsb).toParams with order := .msb } ∧ (c131 .lsb).S = 1 ∧
    (st (c131 .msb) 1#32 8#8 0#8 [0#8] 1).inp = (st (c131 .lsb) 1#32 8#8 0#8 [0#8] 1).inp ∧
    Instr.order? (.setbufLsb 0#16) = some .lsb ∧
    (outOf (exec .getbLsb (st (c131 .lsb) 1#32 8#8 0#8 [0#8] 1))).isSome = true ∧
    (faultOf (exec (.getbufLsb 1#16) (st (c131 .lsb) 1#32 8#8 0#8 [0#8] 1))).isSome = true := by decide
theorem witness_WholeByteOrdersReverse : (c808 .lsb).P = 0 ∧ (c808 .lsb).S = 8 := by decide
theorem witness_BitsAboveTheFieldIgnored_decode : ∃ t, exec (.getbufMsb 1#16) (w .msb 3#32) = .next t := ⟨_, rfl⟩
theorem witness_BitsAboveTheFieldIgnored_encode :
    (∃ t, exec (.setbufLsb 1#16) (w .lsb 4#32) = .next t) ∧
    (∃ t, exec (.setbufLsb 1#16) { w .lsb 4#32 with inp := { (w .lsb 4#32).inp with valueIn := 0xFE42 } } = .next t) ∧
    0xFE42 % 2 ^ (w .lsb 4#32).cfg.S = (w .lsb 4#32).inp.valueIn % 2 ^ (w .lsb 4#32).cfg.S :=
  ⟨⟨_, rfl⟩, ⟨_, rfl⟩, by decide⟩
theorem witness_WholeByteFieldsMoveBytewise : (c1616 .lsb).P = 0 ∧ (c1616 .lsb).S = 8 * 2 ∧
    8 * (0#16).toNat + 8 * 2 = 8 * (c1616 .lsb).N ∧ (c1616 .lsb).hasSetbuf = true := by decide
theorem witness_DecodeOfEncode : Instr.WellFormed (c179 .msb) (.setbufMsb 0xFFFF#16) ∧
    Instr.WellFormed (noSetbuf .lsb) (.bitcopy 7#3 7#3) := by decide
theorem witness_EncodeOfDecode : decode (c179 .lsb) 0xFFFF0003#32 = .ok (.getbufLsb 0xFFFF#16) := by decide
theorem witness_OrderPicksTheCodec :
    (c179 .lsb).order = .lsb ∧ (c179 .msb).toParams = { (c179 .lsb).toParams with order := .msb } := by decide
theorem witness_StepRunsTheDecodedCommand : IssuesNext (sys .lsb 0x10003#32) [] ∧
    decode (sys .lsb 0x10003#32).cfg (sys .lsb 0x10003#32).inp.cmd = .ok (.getbufLsb 1#16) ∧
    (outOf (exec (.getbufLsb 1#16) (sample (sys .lsb 0x10003#32)))).isSome = true ∧
    (∀ a ∈ (sys .lsb 0x10003#32).accesses, a.agent = (sys .lsb 0x10003#32).agent) ∧
    decode (sys .lsb 0x20003#32).cfg (sys .lsb 0x20003#32).inp.cmd = .ok (.getbufLsb 2#16) ∧
    (faultOf (exec (.getbufLsb 2#16) (sample (sys .lsb 0x20003#32)))).isSome = true := by decide
theorem witness_ErrorsByPriority_illegal :
    IssuesNext (w .lsb 0xFFFFFFFF#32) [] ∧ IllegalWord (w .lsb 0xFFFFFFFF#32).cfg (w .lsb 0xFFFFFFFF#32).inp.cmd := by
  unfold IllegalWord; decide
theorem witness_ErrorsByPriority_reserved : IssuesNext (w .lsb 0x0009000B#32) [] ∧
    ¬ IllegalWord (w .lsb 0x0009000B#32).cfg (w .lsb 0x0009000B#32).inp.cmd ∧
    ReservedWord (w .lsb 0x0009000B#32).inp.cmd := by
  unfold IllegalWord ReservedWord; decide
theorem witness_ErrorsByPriority_range : IssuesNext (w .lsb 0x20003#32) [] ∧
    decode (w .lsb 0x20003#32).cfg (w .lsb 0x20003#32).inp.cmd = .ok (.getbufLsb 2#16) ∧
    OutOfRange (w .lsb 0x20003#32).cfg (.getbufLsb 2#16) := by
  unfold OutOfRange; decide
theorem witness_AllZeroWordDoesNothing : IssuesNext (w .msb 0#32) [] ∧ (w .msb 0#32).inp.cmd = 0#32 := by decide
theorem witness_FaultWritesNothing :
    IssuesNext (w .lsb 0x20003#32) [] ∧ (faultOf (step (w .lsb 0x20003#32))).isSome = true := by decide
theorem witness_ErrorsLeaveNoState_error :
    ({ w .lsb 0x20003#32 with pending := [.issue] } : State).pending = .issue :: [] ∧
    OutOfRange (c179 .lsb) (.getbufLsb 2#16) ∧ decode (c179 .lsb) 0x20003#32 = .ok (.getbufLsb 2#16) := by
  unfold OutOfRange; decide
theorem witness_ErrorsLeaveNoState_next : ∃ t, step { w .lsb 0x3#32 with pending := [.issue] } = .next t := ⟨_, rfl⟩
theorem witness_EveryIssueEnds : IssuesNext (w .lsb 0x3#32) [] := by decide
theorem witness_OutputsFollowInputsAlone_next :
    IssuesNext (w .lsb 0x3#32) [] ∧ (outOf (step (w .lsb 0x3#32))).isSome = true := by decide
theorem witness_OutputsFollowInputsAlone_fault : IssuesNext (w .lsb 0x6#32) [] ∧
    faultOf (step (w .lsb 0x6#32)) = some (.illegalOp (errorOutputs 1#2 (w .lsb 0x6#32))) := by decide
theorem witness_OutputsFollowInputsAlone_states :
    (w .lsb 3#32).cfg = ({ w .lsb 3#32 with out := errorOutputs 2#2 (w .lsb 3#32) } : State).cfg ∧
    (w .lsb 3#32).inp = ({ w .lsb 3#32 with out := errorOutputs 2#2 (w .lsb 3#32) } : State).inp := by decide
theorem witness_CommandsDriveOnlyTheirOutput : ∃ t, exec (.setbufMsb 1#16) (w .msb 4#32) = .next t := ⟨_, rfl⟩
theorem witness_CommandsAreIdempotent : ∃ t, exec (.bitcopy 7#3 0#3) (w .msb 4#32) = .next t := ⟨_, rfl⟩
theorem witness_ConfigurationIsNeverWritten : (∃ t, step (w .lsb 3#32) = .next t) ∧
    (∀ p, (w .lsb 3#32).pending.head? ≠ some (.select p)) ∧ ∀ n, (w .lsb 3#32).pending.head? ≠ some (.turn n) :=
  ⟨⟨_, rfl⟩, by simp [w, st], by simp [w, st]⟩
theorem witness_StepKeepsPortsWithinWidth :
    (sys .lsb 0x10004#32).Inv ∧ ∃ t, step (sys .lsb 0x10004#32) = .next t :=
  ⟨⟨⟨by decide, by decide, by decide, by decide, by decide, by decide, by decide⟩, by simp [sys, st], by decide, by decide⟩,
    ⟨_, rfl⟩⟩
theorem witness_IllegalInstancesAreRefused :
    (c179 .msb).toParams.Legal ∧ ¬ Params.Legal { W := 8, P := 5, S := 4, order := .lsb, N := 1 } ∧
    ({ w .lsb 3#32 with pending := [.select (c179 .msb).toParams] } : State).pending =
      .select (c179 .msb).toParams :: [] := by decide
theorem witness_PresentedBufferIsTheStream :
    ({ w .lsb 3#32 with pending := [.driveBuf [1#8, 2#8, 3#8]] } : State).pending = .driveBuf [1#8, 2#8, 3#8] :: [] ∧
    [1#8, 2#8, 3#8].length = (w .lsb 3#32).cfg.N ∧ [1#8].length ≠ (w .lsb 3#32).cfg.N := by decide
theorem witness_DrivingSetsOneInput :
    ({ w .lsb 3#32 with pending := [.driveValue 0x10000] } : State).pending = .driveValue 0x10000 :: [] ∧
    ({ w .lsb 3#32 with pending := [.driveCmd 1#32] } : State).pending = .driveCmd 1#32 :: [] ∧
    ({ w .lsb 3#32 with pending := [.driveByte 1#8] } : State).pending = .driveByte 1#8 :: [] ∧
    ({ w .lsb 3#32 with pending := [.driveSrc 1#8] } : State).pending = .driveSrc 1#8 :: [] := by decide
theorem witness_WriteBackIsAStepOfTheHost : (∀ b ∈ (w .lsb 3#32).accesses, b.agent = (w .lsb 3#32).agent) ∧
    IssuesNext (w .lsb 3#32) [] ∧ (outOf (step (w .lsb 3#32))).isSome = true ∧
    ({ w .lsb 3#32 with pending := [.storeByte 0] } : State).pending = .storeByte 0 :: [] ∧
    ({ w .lsb 3#32 with pending := [.storeBuf 0] } : State).pending = .storeBuf 0 :: [] := by decide

/-- Program P5 of 95_test_vectors.md, chained: F1 on 0x00, then F2 on its result 0x05. -/
theorem witness_ChainedByteWritesKeepBothFields :
    ((c804 .lsb).P + (c804 .lsb).S ≤ (c844 .lsb).P) ∧
    (outOf (exec .setbLsb (st (c804 .lsb) 2#32 0x00#8 0#8 [] 5))).map Outputs.byteOut = some 0x05#8 ∧
    (outOf (exec .setbLsb (st (c844 .lsb) 2#32 0x05#8 0#8 [] 0xA))).map Outputs.byteOut = some 0xA5#8 ∧
    (outOf (exec .setbLsb (st (c844 .lsb) 2#32 0x00#8 0#8 [] 0xA))).map Outputs.byteOut = some 0xA0#8 := by decide
/-- Two 4-bit fields at offsets 0 and 1 of a two-byte buffer; the second command is issued on the first one's result. -/
def c804two : Config := { W := 8, P := 0, S := 4, order := .msb, N := 2, legal := by decide }
theorem witness_ChainedBufferWritesKeepBothFields :
    (c804two.P + 8 * (0#16).toNat + c804two.S ≤ c804two.P + 8 * (1#16).toNat) ∧
    (outOf (exec (.setbufMsb 0#16) (st c804two 4#32 0#8 0#8 [0#8, 0#8] 5))).map Outputs.bufOut =
      some (Memory.ofBytes [0x0A#8, 0#8]) ∧
    (outOf (exec (.setbufMsb 1#16) (st c804two 4#32 0#8 0#8 [0x0A#8, 0#8] 5))).isSome = true ∧
    (outOf (exec (.setbufMsb 1#16) (st c804two 4#32 0#8 0#8 [0#8, 0#8] 5))).isSome = true := by decide

/-- Another agent's write of address 102, the buffer's byte 2, which GETBUF 1's field ends in and GETBUF 0's does not
touch. -/
def foreign : Access := { agent := 1, lo := 102, hi := 103, writesBack := true }
theorem witness_UnserialisedOverlapIsARace_issue :
    decode (sys .lsb 0x10003#32).cfg (sys .lsb 0x10003#32).inp.cmd = .ok (.getbufLsb 1#16) ∧
    (outOf (exec (.getbufLsb 1#16) (sample (sys .lsb 0x10003#32)))).isSome = true ∧
    faultOf (step { sys .lsb 0x10003#32 with accesses := [foreign] }) = some .race ∧
    (outOf (step { sys .lsb 0x3#32 with accesses := [foreign] })).isSome = true := by decide
theorem witness_UnserialisedOverlapIsARace_host :
    faultOf (step { sys .lsb 0x3#32 with pending := [.storeByte 102], accesses := [foreign] }) = some .race ∧
    (nextOf (step { sys .lsb 0x3#32 with pending := [.storeByte 103], accesses := [foreign] })).isSome = true ∧
    faultOf (step { sys .lsb 0x3#32 with pending := [.storeBuf 100], accesses := [foreign] }) = some .race ∧
    faultOf (step { sys .lsb 0x3#32 with pending := [.write 101 [0#8, 0#8]], accesses := [foreign] }) = some .race ∧
    faultOf (step { sys .lsb 0x3#32 with pending := [.read 100 3], accesses := [foreign] }) = some .race ∧
    (nextOf (step { sys .lsb 0x3#32 with pending := [.read 100 2], accesses := [foreign] })).isSome = true ∧
    faultOf (step { sys .lsb 0x3#32 with pending := [.copy 100 200 3], accesses := [foreign] }) = some .race := by decide
theorem witness_ReadersNeverRace : IssuesNext (sys .lsb 3#32) [] ∧
    (∀ a ∈ ({ sys .lsb 3#32 with accesses := [{ foreign with writesBack := false }] } : State).accesses,
      a.agent ≠ 0 → a.writesBack = false) ∧
    ({ sys .lsb 3#32 with pending := [.read 100 3] } : State).pending = .read 100 3 :: [] ∧
    ({ sys .lsb 3#32 with pending := [.serialise] } : State).pending = .serialise :: [] := by decide
theorem witness_OnlyStoresWriteTheHostsMemory : (∃ t, step (sys .lsb 0x10004#32) = .next t) ∧
    (∀ a, (sys .lsb 0x10004#32).pending.head? ≠ some (.storeByte a)) ∧
    (∀ a, (sys .lsb 0x10004#32).pending.head? ≠ some (.storeBuf a)) ∧
    (∀ a bs, (sys .lsb 0x10004#32).pending.head? ≠ some (.write a bs)) ∧
    ∀ a d n, (sys .lsb 0x10004#32).pending.head? ≠ some (.copy a d n) :=
  ⟨⟨_, rfl⟩, by simp [sys, st], by simp [sys, st], by simp [sys, st], by simp [sys, st]⟩
theorem witness_IssuePresentsTheHostsData : IssuesNext (sys .lsb 0x10004#32) [] ∧
    (outOf (step (sys .lsb 0x10004#32))).isSome = true ∧ (sys .lsb 3#32).source.byte = some 101 ∧
    (sys .lsb 3#32).source.src = some 101 ∧ (sys .lsb 3#32).source.buf = some 100 ∧ 2 < (sys .lsb 3#32).cfg.N ∧
    (sys .lsb 3#32).source.value = some 7 ∧ IssuesNext (w .lsb 3#32) [] ∧ (outOf (step (w .lsb 3#32))).isSome = true ∧
    (w .lsb 3#32).source = noSource := by decide
theorem witness_PresentingNamesTheHostsData :
    ({ w .lsb 3#32 with pending := [.presentByte 0] } : State).pending = .presentByte 0 :: [] ∧
    ({ w .lsb 3#32 with pending := [.presentSrc 0] } : State).pending = .presentSrc 0 :: [] ∧
    ({ w .lsb 3#32 with pending := [.presentBuf 0] } : State).pending = .presentBuf 0 :: [] ∧
    ({ w .lsb 3#32 with pending := [.presentValue 0] } : State).pending = .presentValue 0 :: [] := by decide
theorem witness_CommandsRecordWhatTheyRead : IssuesNext (sys .lsb 0x10003#32) [] ∧
    decode (sys .lsb 0x10003#32).cfg (sys .lsb 0x10003#32).inp.cmd = .ok (.getbufLsb 1#16) ∧
    (nextOf (step (sys .lsb 0x10003#32))).map State.accesses = some [⟨0, 101, 103, false⟩] := by decide
theorem witness_CommandsRecordWhatTheyRead_byte : ReadsByte (sys .lsb 0x10003#32) (.getbufLsb 1#16) 102 :=
  ⟨100, 8, rfl, by decide, by decide⟩
theorem witness_ErrorCodeIsAFault_error :
    IssuesNext (w .lsb 0x20003#32) [] ∧ (respond (sample (w .lsb 0x20003#32))).errCode ≠ 0#2 := by decide
/-- A host program: its second action is the issue, which completes or, with another word, has an error. -/
def prog (cmd : CmdWord) : State := { sys .lsb 0#32 with pending := [.driveCmd cmd, .issue, .storeBuf 100] }
theorem witness_ErrorCodeIsAFault_safe : SafeRun 3 (prog 0x10004#32) ∧
    ∃ u, Sys2Proof.core.run 1 (prog 0x10004#32) = .next u ∧ IssuesNext u [.storeBuf 100] :=
  ⟨⟨_, rfl⟩, _, rfl, .inr rfl⟩
/-- The issue as the host asks for it, which the statements about an issue speak of too: a completing one, and one that has
an error. -/
theorem witness_IssuesNext_action :
    IssuesNext { sys .lsb 0x10004#32 with pending := [.issue, .storeBuf 100] } [.storeBuf 100] ∧
    (outOf (step { sys .lsb 0x10004#32 with pending := [.issue, .storeBuf 100] })).map Outputs.bufOut =
      some (Memory.ofBytes [0x02#8, 0x21#8, 0x21#8]) ∧
    (nextOf (step { sys .lsb 0x10004#32 with pending := [.issue, .storeBuf 100] })).map State.pending =
      some [.storeBuf 100] ∧
    (faultOf (step { sys .lsb 0x20004#32 with pending := [.issue, .storeBuf 100] })).isSome = true := by decide
theorem witness_WriteBackAfterErrorChangesNothing :
    (∃ t u, stepReading { sys .lsb 0x20004#32 with pending := [.issue, .storeByte 101] } = .next t ∧ step t = .next u) ∧
    (∃ t u, stepReading { sys .lsb 0x20004#32 with pending := [.issue, .storeBuf 100] } = .next t ∧ step t = .next u) ∧
    (faultOf (step { sys .lsb 0x20004#32 with pending := [.issue, .storeBuf 100] })).isSome = true :=
  ⟨⟨_, _, rfl, rfl⟩, ⟨_, _, rfl, rfl⟩, by decide⟩
theorem witness_VariablesHoldWhatIsStored :
    ({ w .lsb 3#32 with pending := [.storeValue 0] } : State).pending = .storeValue 0 :: [] ∧
    ({ w .lsb 3#32 with pending := [.storeErr 0] } : State).pending = .storeErr 0 :: [] ∧
    ({ w .lsb 3#32 with pending := [.setVar 0 5] } : State).pending = .setVar 0 5 :: [] := by decide
theorem witness_TheHostsOwnAccesses : (∀ b ∈ (sys .lsb 3#32).accesses, b.agent = (sys .lsb 3#32).agent) ∧
    ({ sys .lsb 3#32 with pending := [.write 100 [1#8]] } : State).pending = .write 100 [1#8] :: [] ∧
    ({ sys .lsb 3#32 with pending := [.read 100 3] } : State).pending = .read 100 3 :: [] ∧
    ({ sys .lsb 3#32 with pending := [.copy 100 101 2] } : State).pending = .copy 100 101 2 :: [] := by decide
theorem witness_ThreadsShareMemoryAlone :
    ({ w .lsb 3#32 with pending := [.turn 1] } : State).pending = .turn 1 :: [] ∧ (outOf (step (w .lsb 3#32))).isSome = true ∧
    (1 : Nat) ≠ (w .lsb 3#32).agent := by decide
theorem witness_ThreadsShareMemoryAlone_other : ∀ n, (w .lsb 3#32).pending.head? ≠ some (.turn n) := by simp [w, st]

end Sys2Proof.Tests
end

/-! PROOFS. Elaboration (00_scope.md R12): what it accepts, and which condition each refusal names. -/

namespace Sys2Proof.Machine

open Sys2Proof

/-- The condition of R12 that `e` names is the first to fail. Past S ≤ W, W ≥ 1 follows from S ≥ 1. -/
def FailsFirst (p : Params) : ConfigError → Prop
  | .valueWidthZero => p.W = 0
  | .sizeZero => p.W ≠ 0 ∧ p.S = 0
  | .sizeExceedsValue => p.W ≠ 0 ∧ p.S ≠ 0 ∧ p.W < p.S
  | .bufferLength => 1 ≤ p.S ∧ p.S ≤ p.W ∧ (p.N = 0 ∨ 65536 < p.N)
  | .fieldExceedsBuffer => 1 ≤ p.S ∧ p.S ≤ p.W ∧ 1 ≤ p.N ∧ p.N ≤ 65536 ∧ 8 * p.N < p.P + p.S

/-- The guard of the branch taken is the condition that fails, and the guards passed over are those that hold. -/
theorem failsFirst_of_configError {p : Params} {e : ConfigError} (h : configError p = some e) : FailsFirst p e := by
  unfold configError at h
  split_ifs at h with hW hS hSW hN hF <;> cases h
  · exact hW
  · exact ⟨hW, hS⟩
  · exact ⟨hW, hS, hSW⟩
  · exact ⟨by omega, by omega, hN⟩
  · exact ⟨by omega, by omega, by omega, by omega, hF⟩

theorem configError_of_failsFirst {p : Params} {e : ConfigError} (h : FailsFirst p e) : configError p = some e := by
  unfold configError
  cases e with
  | valueWidthZero => exact if_pos h
  | sizeZero =>
    obtain ⟨hW, hS⟩ := h
    rw [if_neg hW, if_pos hS]
  | sizeExceedsValue =>
    obtain ⟨hW, hS, hSW⟩ := h
    rw [if_neg hW, if_neg hS, if_pos hSW]
  | bufferLength =>
    obtain ⟨hS, hSW, hN⟩ := h
    rw [if_neg (by omega), if_neg (by omega), if_neg (by omega), if_pos hN]
  | fieldExceedsBuffer =>
    obtain ⟨hS, hSW, hN, hN', hF⟩ := h
    rw [if_neg (by omega), if_neg (by omega), if_neg (by omega), if_neg (by omega), if_pos hF]

theorem configError_eq_some_iff {p : Params} {e : ConfigError} : configError p = some e ↔ FailsFirst p e :=
  ⟨failsFirst_of_configError, configError_of_failsFirst⟩

theorem configError_eq_none_iff {p : Params} : configError p = none ↔ p.Legal := by
  constructor
  · intro h
    unfold configError at h
    split_ifs at h
    refine ⟨?_, ?_, ?_, ?_, ?_, ?_, ?_⟩ <;> omega
  · intro h
    by_contra hne
    obtain ⟨e, he⟩ := Option.ne_none_iff_exists'.mp hne
    have hf := failsFirst_of_configError he
    cases e <;> simp only [FailsFirst] at hf <;> omega

/-- The default in `elaborate` is never used: an illegal configuration has a condition that fails first. -/
theorem elaborate_eq_error_iff {p : Params} {e : ConfigError} : elaborate p = .error e ↔ FailsFirst p e := by
  rw [← configError_eq_some_iff, elaborate]
  by_cases hp : p.Legal
  · rw [dif_pos hp, configError_eq_none_iff.mpr hp]
    simp only [reduceCtorEq]
  · obtain ⟨e', he'⟩ := Option.ne_none_iff_exists'.mp (mt configError_eq_none_iff.mp hp)
    rw [dif_neg hp, he', Option.getD_some, Except.error.injEq, Option.some_inj]

theorem exists_elaborate_ok_iff {p : Params} : (∃ cfg, elaborate p = .ok cfg ∧ cfg.toParams = p) ↔ p.Legal :=
  ⟨fun ⟨_, h, _⟩ => (elaborate_ok h).1, fun h => ⟨⟨p, h⟩, dif_pos h, rfl⟩⟩

/-- Settles O43: it holds. `Params.Legal` is the list of R12's conditions, and each refusal is its branch of `configError`. -/
theorem elaborationAcceptsExactlyLegal : Obligations.ElaborationAcceptsExactlyLegal := by
  intro p
  have hLegal : p.Legal ↔ 1 ≤ p.W ∧ 1 ≤ p.S ∧ p.S ≤ p.W ∧ 1 ≤ p.N ∧ p.N ≤ 65536 ∧ p.P + p.S ≤ 8 * p.N := by
    simp only [Params.Legal, Nat.zero_le, true_and]
  exact ⟨exists_elaborate_ok_iff.trans hLegal, elaborate_eq_error_iff, elaborate_eq_error_iff, elaborate_eq_error_iff,
    elaborate_eq_error_iff, elaborate_eq_error_iff⟩

end Sys2Proof.Machine

/-! PROOFS. What an issue and one action of the host can do, said once: the statements about a step are read off these. -/

namespace Sys2Proof.Machine

open Sys2Proof

/-- Where only the present thread's accesses are on record, its next ones race with none and are recorded. -/
theorem noteAll_own {as : List Access} {s : State} (ha : ∀ a ∈ as, a.agent = s.agent)
    (hs : ∀ b ∈ s.accesses, b.agent = s.agent) :
    ∃ rs, noteAll as s = .next { s with accesses := rs } ∧ ∀ a, a ∈ rs ↔ a ∈ s.accesses ∨ a ∈ as := by
  rcases noteAll_cases ha with ⟨-, t, ht⟩ | ⟨⟨a, ham, b, hb, hc⟩, -⟩
  · exact ⟨t.accesses, ht.trans (congrArg _ (noteAll_next ht)), noteAll_mem ht⟩
  · exact absurd ((ha a ham).trans (hs b hb).symm) ((conflict_iff a b).mp hc).1

theorem noteAll_singleton (a : Access) (s : State) : noteAll [a] s = note a s := by
  cases h : note a s <;> simp [noteAll, andThen, h]

theorem note_own {a : Access} {s : State} (ha : a.agent = s.agent) (hs : ∀ b ∈ s.accesses, b.agent = s.agent) :
    ∃ rs, note a s = .next { s with accesses := rs } ∧ ∀ b, b ∈ rs ↔ b ∈ s.accesses ∨ b = a := by
  simpa [noteAll_singleton] using noteAll_own (as := [a]) (by simpa using ha) hs

theorem store_own {s : State} (a : Nat) (bs : List Byte) (hs : ∀ b ∈ s.accesses, b.agent = s.agent) :
    ∃ rs, store a bs s = .next { s with mem := storeBytes s.mem a bs, accesses := rs } ∧
      ∀ b, b ∈ rs ↔ b ∈ s.accesses ∨ b = useOf s a bs.length true :=
  note_own (s := storeOp a bs s) rfl hs

/-- Sampling the inputs changes none of the operands' addresses. -/
theorem accessesOf_sample (s : State) (i : Instr) : accessesOf (sample s) i = accessesOf s i := by
  cases i <;> rfl

theorem accessesOf_setPending (s : State) (rest : List HostAction) (i : Instr) :
    accessesOf { s with pending := rest } i = accessesOf s i := by
  cases i <;> rfl

/-- An issue that completes runs the command decoded on the inputs sampled and records what it read. -/
theorem issue_next {s t : State} (h : issue s = .next t) :
    ∃ i rs, decode s.cfg s.inp.cmd = .ok i ∧ completes i s.cfg ∧
      t = { sample s with out := drives i (sample s), outOf := s.cfg, accesses := rs } ∧
      ∀ a, a ∈ rs ↔ a ∈ s.accesses ∨ a ∈ accessesOf s i := by
  obtain ⟨i, hd, hc, ht, hrs⟩ := issueSampled_next h
  exact ⟨i, t.accesses, hd, hc, ht, accessesOf_sample s i ▸ hrs⟩

/-- An issue can fault in a race of agents, and otherwise only as the block does (R187). -/
theorem issueSampled_fault {s : State} {f : Fault} (h : issueSampled s = .fault f) :
    f = .race ∨ runCommand s = .fault f := by
  simp only [issueSampled, runCommand] at h ⊢
  split at h
  · exact .inr h
  · rename_i i hd
    cases he : exec i s with
    | fault g => rw [he] at h; exact .inr h
    | refused r => rw [he] at h; cases h
    | next u =>
      obtain ⟨-, rfl⟩ := exec_next he
      rw [he] at h
      rcases noteAll_cases (s := { s with out := drives i s, outOf := s.cfg })
        (fun a ha => (accessesOf_own s i a ha).1) with ⟨-, t, ht⟩ | ⟨-, ht⟩
      · cases ht.symm.trans h
      · cases ht.symm.trans h; exact .inl rfl

/-- The issue that comes next, completing: it is an issue as any other, and it is taken off the host's actions. -/
theorem step_issue_next {s t : State} {rest : List HostAction} (hI : IssuesNext s rest) (h : step s = .next t) :
    ∃ i rs, decode s.cfg s.inp.cmd = .ok i ∧ completes i s.cfg ∧
      t = { sample s with out := drives i (sample s), outOf := s.cfg, pending := rest, accesses := rs } ∧
      ∀ a, a ∈ rs ↔ a ∈ s.accesses ∨ a ∈ accessesOf s i := by
  rw [step_issue hI] at h
  obtain ⟨i, rs, hd, hc, ht, hrs⟩ := issue_next h
  rw [drives_congr i (s := sample s) (s' := sample { s with pending := rest }) rfl rfl] at ht
  exact ⟨i, rs, hd, hc, ht, accessesOf_setPending s rest i ▸ hrs⟩

/-- A step with an action of the host pending is that action. -/
theorem step_cons {s : State} {act : HostAction} {rest : List HostAction} (h : s.pending = act :: rest) :
    step s = hostAct act { s with pending := rest } := by
  simp [step, h]

/-- The action a step does: the host's next, or the issue of a step with none pending (R32). -/
def nextAction (s : State) : HostAction := s.pending.head?.getD .issue

theorem step_eq_hostAct (s : State) : step s = hostAct (nextAction s) { s with pending := s.pending.tail } := by
  cases h : s.pending with
  | nil => rw [step_issue (.inl ⟨h, rfl⟩)]; simp [nextAction, h, hostAct]
  | cons act rest => rw [step_cons h]; simp [nextAction, h]

/-- Every action but an issue is one the host has pending. -/
theorem head?_of_nextAction {s : State} {act : HostAction} (h : nextAction s = act) (hne : act ≠ .issue) :
    s.pending.head? = some act := by
  cases hp : s.pending.head? with
  | none => rw [nextAction, hp] at h; exact absurd h.symm hne
  | some b => rw [nextAction, hp] at h; exact congrArg some h

/-- The actions that store bytes in the host's memory. -/
inductive HostAction.Stores : HostAction → Prop
  | storeByte (a : Nat) : Stores (.storeByte a)
  | storeBuf (a : Nat) : Stores (.storeBuf a)
  | write (a : Nat) (bs : List Byte) : Stores (.write a bs)
  | copy (src dst n : Nat) : Stores (.copy src dst n)

/-- The state an action leaves, by kind of action: the actions that drive or present an input are one kind, those that
store bytes another, and so are those that set a variable and those that change the record alone. -/
inductive ActionEffect (s : State) : HostAction → State → Prop
  | turn (n : Nat) : ActionEffect s (.turn n) (turnTo n s)
  | select {p : Params} {cfg : Config} (h : elaborate p = .ok cfg) : ActionEffect s (.select p) (refit cfg s)
  | ports {act : HostAction} (inp : Inputs) (source : Sources)
      (hbuf : inp.bufIn = s.inp.bufIn ∨ ∃ bs, bs.length = s.cfg.N ∧ inp.bufIn = Memory.ofBytes bs)
      (hvalue : inp.valueIn = s.inp.valueIn ∨ ∃ v, inp.valueIn = truncTo s.cfg.W v) :
      ActionEffect s act { s with inp := inp, source := source }
  | store {act : HostAction} (h : act.Stores) (a : Nat) (bs : List Byte) (rs : List Access) :
      ActionEffect s act { s with mem := storeBytes s.mem a bs, accesses := rs }
  | setVar {act : HostAction} (x v : Nat) : ActionEffect s act (setVarOp x v s)
  | record {act : HostAction} (rs : List Access) : ActionEffect s act { s with accesses := rs }
  | issue {i : Instr} (hc : completes i s.cfg) (rs : List Access) :
      ActionEffect s .issue { sample s with out := drives i (sample s), outOf := s.cfg, accesses := rs }

theorem ActionEffect.of_store {act : HostAction} {a : Nat} {bs : List Byte} {s t : State} (hs : act.Stores)
    (h : Machine.store a bs s = .next t) : ActionEffect s act t := by
  rw [(store_next h).1]
  exact .store hs a bs t.accesses

/-- Everything an action of the host can leave. -/
theorem hostAct_effect {act : HostAction} {s t : State} (h : hostAct act s = .next t) : ActionEffect s act t := by
  cases act with
  | turn n => cases h; exact .turn n
  | select p =>
    simp only [hostAct] at h
    split at h
    · rename_i cfg he
      cases h; exact .select he
    · cases h
  | driveBuf bs =>
    simp only [hostAct] at h
    split at h
    · rename_i hl
      cases h; exact .ports _ _ (.inr ⟨bs, hl, rfl⟩) (.inl rfl)
    · cases h
  | driveValue v => cases h; exact .ports _ _ (.inl rfl) (.inr ⟨v, rfl⟩)
  | driveCmd _ | driveByte _ | driveSrc _ | presentByte _ | presentSrc _ | presentBuf _ | presentValue _ =>
    cases h; exact .ports _ _ (.inl rfl) (.inl rfl)
  | storeByte a => exact .of_store (.storeByte a) h
  | storeBuf a => exact .of_store (.storeBuf a) h
  | write a bs => exact .of_store (.write a bs) h
  | copy src dst n =>
    obtain ⟨u, hu, ht⟩ := andThen_next h
    rw [(store_next ht).1, (note_next hu).2]
    exact .store (.copy src dst n) dst _ t.accesses
  | storeValue x | storeErr x | setVar x _ => cases h; exact .setVar x _
  | read a n => rw [(note_next h).2]; exact .record _
  | serialise => cases h; exact .record []
  | issue =>
    obtain ⟨i, rs, -, hc, rfl, -⟩ := issue_next h
    exact .issue hc rs

/-- Everything a step can leave. -/
theorem step_effect {s t : State} (h : step s = .next t) :
    ActionEffect { s with pending := s.pending.tail } (nextAction s) t :=
  hostAct_effect ((step_eq_hostAct s).symm.trans h)

end Sys2Proof.Machine

/-! PROOFS. The invariant: it holds at reset, and every kind of action keeps it. -/

namespace Sys2Proof.Machine

open Sys2Proof

theorem Thread.initial_inv : Thread.initial.Inv where
  valueIn_lt := truncTo_lt _ _
  valueOut_lt := Nat.two_pow_pos _
  bufIn_wf := .nil
  bufIn_within := by simp [Thread.initial]
  bufOut_wf := .nil
  bufOut_within := by simp [Thread.initial]
  vars_wf := .nil

theorem sampleValue_lt {s : State} (h : s.inp.valueIn < 2 ^ s.cfg.W) : sampleValue s < 2 ^ s.cfg.W := by
  unfold sampleValue
  split
  · exact h
  · exact truncTo_lt _ _

theorem sampleBuf_wf {s : State} (h : Memory.wf s.inp.bufIn) : Memory.wf (sampleBuf s) := by
  unfold sampleBuf
  split
  · exact h
  · exact ofBytes_wf _

theorem sampleBuf_within {s : State} (h : Memory.within s.cfg.N s.inp.bufIn) : Memory.within s.cfg.N (sampleBuf s) := by
  unfold sampleBuf
  split
  · exact h
  · simpa using ofBytes_within (hostBytes s.mem _ s.cfg.N)

theorem drives_valueOut_lt (i : Instr) (s : State) : (drives i s).valueOut < 2 ^ s.cfg.W := by
  cases i with
  | getbLsb | getbufLsb _ | getbMsb | getbufMsb _ => exact truncTo_lt _ _
  | setbLsb | setbufLsb _ | setbMsb | setbufMsb _ | bitcopy _ _ => exact Nat.two_pow_pos _

theorem drives_bufOut_wf (i : Instr) {s : State} (h : Memory.wf s.inp.bufIn) : Memory.wf (drives i s).bufOut := by
  cases i with
  | setbufLsb _ | setbufMsb _ => exact scatterBuf_wf _ _ _ h
  | getbLsb | setbLsb | getbufLsb _ | getbMsb | setbMsb | getbufMsb _ | bitcopy _ _ => exact h

/-- The range check keeps every bit that SETBUF writes within the N bytes (R183). -/
theorem drives_bufOut_within {i : Instr} {s : State} (hc : completes i s.cfg)
    (h : Memory.within s.cfg.N s.inp.bufIn) : Memory.within s.cfg.N (drives i s).bufOut := by
  cases i with
  | setbufLsb boff =>
    refine scatterBuf_within _ _ _ h fun d hd => ?_
    have := hc.2
    simp only [fieldBase]; omega
  | setbufMsb boff =>
    refine scatterBuf_within _ _ _ h fun d hd => ?_
    have := hc.2
    simp only [fieldEnd]; omega
  | getbLsb | setbLsb | getbufLsb _ | getbMsb | setbMsb | getbufMsb _ | bitcopy _ _ => exact h

/-- A thread whose issue has completed. -/
theorem issued_inv {i : Instr} {s : State} (hc : completes i s.cfg) (h : s.toThread.Inv) :
    Thread.Inv { (sample s).toThread with out := drives i (sample s), outOf := s.cfg } where
  valueIn_lt := sampleValue_lt h.valueIn_lt
  valueOut_lt := drives_valueOut_lt i (sample s)
  bufIn_wf := sampleBuf_wf h.bufIn_wf
  bufIn_within := sampleBuf_within h.bufIn_within
  bufOut_wf := drives_bufOut_wf i (s := sample s) (sampleBuf_wf h.bufIn_wf)
  bufOut_within := drives_bufOut_within (s := sample s) hc (sampleBuf_within h.bufIn_within)
  vars_wf := h.vars_wf

theorem refit_thread_inv (cfg : Config) {s : State} (h : s.toThread.Inv) : (refit cfg s).toThread.Inv where
  valueIn_lt := widenValue_lt _ _ _
  valueOut_lt := h.valueOut_lt
  bufIn_wf := restrict_wf _ h.bufIn_wf
  bufIn_within := restrict_within _ _
  bufOut_wf := h.bufOut_wf
  bufOut_within := h.bufOut_within
  vars_wf := h.vars_wf

/-- A thread whose input ports carry what they did or what has been driven within their widths. -/
theorem ports_inv {c : Thread} {inp : Inputs} (source : Sources) (h : c.Inv)
    (hbuf : inp.bufIn = c.inp.bufIn ∨ ∃ bs, bs.length = c.cfg.N ∧ inp.bufIn = Memory.ofBytes bs)
    (hvalue : inp.valueIn = c.inp.valueIn ∨ ∃ v, inp.valueIn = truncTo c.cfg.W v) :
    Thread.Inv { c with inp := inp, source := source } where
  valueIn_lt := by
    rcases hvalue with e | ⟨v, e⟩
    · exact e ▸ h.valueIn_lt
    · exact e ▸ truncTo_lt _ _
  valueOut_lt := h.valueOut_lt
  bufIn_wf := by
    rcases hbuf with e | ⟨bs, -, e⟩
    · exact e ▸ h.bufIn_wf
    · exact e ▸ ofBytes_wf bs
  bufIn_within := by
    rcases hbuf with e | ⟨bs, hl, e⟩
    · exact e ▸ h.bufIn_within
    · exact e ▸ hl ▸ ofBytes_within bs
  bufOut_wf := h.bufOut_wf
  bufOut_within := h.bufOut_within
  vars_wf := h.vars_wf

theorem allThreads_inv {s : State} (h : s.Inv) : ∀ c ∈ allThreads s, c.2.Inv := by
  intro c hc
  rcases mem_write _ _ _ _ hc with rfl | hc
  · exact h.thread
  · exact (h.parked c hc).1

theorem threadOf_inv {s : State} (h : s.Inv) (n : Nat) : (threadOf s n).Inv := by
  unfold threadOf
  cases hr : Memory.read? (allThreads s) n with
  | none => exact Thread.initial_inv
  | some c => exact allThreads_inv h _ (mem_of_read? hr)

theorem turnTo_inv (n : Nat) {s : State} (h : s.Inv) : (turnTo n s).Inv where
  thread := threadOf_inv h n
  parked := by
    intro c hc
    obtain ⟨hm, hn⟩ := List.mem_filter.mp hc
    exact ⟨allThreads_inv h c hm, of_decide_eq_true hn⟩
  parked_wf := filter_wf _ (write_wf _ _ h.parked_wf)
  mem_wf := h.mem_wf

/-- Every action keeps the invariant. Only a turn touches the parked threads, and only a store the host's memory. -/
theorem ActionEffect.inv {act : HostAction} {s t : State} (e : ActionEffect s act t) (h : s.Inv) : t.Inv := by
  cases e with
  | turn n => exact turnTo_inv n h
  | select _ => exact ⟨refit_thread_inv _ h.thread, h.parked, h.parked_wf, h.mem_wf⟩
  | ports inp source hbuf hvalue => exact ⟨ports_inv source h.thread hbuf hvalue, h.parked, h.parked_wf, h.mem_wf⟩
  | store _ a bs rs => exact ⟨h.thread, h.parked, h.parked_wf, storeBytes_wf bs a h.mem_wf⟩
  | setVar x v =>
    exact ⟨{ h.thread with vars_wf := write_wf x v h.thread.vars_wf }, h.parked, h.parked_wf, h.mem_wf⟩
  | record rs => exact ⟨h.thread, h.parked, h.parked_wf, h.mem_wf⟩
  | issue hc rs => exact ⟨issued_inv hc h.thread, h.parked, h.parked_wf, h.mem_wf⟩

/-- Settles O40: it holds, for each kind of action a step can do. -/
theorem stepKeepsPortsWithinWidth : Obligations.StepKeepsPortsWithinWidth := by
  intro s t hs h
  exact (step_effect h).inv ⟨hs.thread, hs.parked, hs.parked_wf, hs.mem_wf⟩

/-- Settles O41: it holds, whatever `Config.launchValue` is, since the port keeps W bits of it. -/
theorem resetPortsWithinWidth : Obligations.ResetPortsWithinWidth where
  thread := Thread.initial_inv
  parked := by simp [State.reset]
  parked_wf := .nil
  mem_wf := .nil

end Sys2Proof.Machine

/-! PROOFS. What a command drives: the outputs that are not its own (10_state.md R26), and the bits of a value outside the
field (R30). -/

namespace Sys2Proof.Machine

open Sys2Proof

theorem drives_errCode (i : Instr) (s : State) : (drives i s).errCode = 0#2 := by
  cases i <;> rfl

/-- A command that decodes no value drives 0 on `value_out`. -/
theorem drives_valueOut {i : Instr} (s : State)
    (h : ∀ boff, i ≠ .getbLsb ∧ i ≠ .getbMsb ∧ i ≠ .getbufLsb boff ∧ i ≠ .getbufMsb boff) :
    (drives i s).valueOut = 0 := by
  cases i with
  | getbLsb | getbMsb | getbufLsb _ | getbufMsb _ => simp at h
  | setbLsb | setbufLsb _ | setbMsb | setbufMsb _ | bitcopy _ _ => rfl

/-- A command that updates no byte passes `byte_in` on. -/
theorem drives_byteOut {i : Instr} (s : State)
    (h : ∀ didx sidx, i ≠ .setbLsb ∧ i ≠ .setbMsb ∧ i ≠ .bitcopy didx sidx) :
    (drives i s).byteOut = s.inp.byteIn := by
  cases i with
  | setbLsb | setbMsb | bitcopy _ _ => simp at h
  | getbLsb | getbufLsb _ | setbufLsb _ | getbMsb | getbufMsb _ | setbufMsb _ => rfl

/-- A command that updates no buffer passes `buf_in` on. -/
theorem drives_bufOut {i : Instr} (s : State) (h : ∀ boff, i ≠ .setbufLsb boff ∧ i ≠ .setbufMsb boff) :
    (drives i s).bufOut = s.inp.bufIn := by
  cases i with
  | setbufLsb _ | setbufMsb _ => simp at h
  | getbLsb | setbLsb | getbufLsb _ | getbMsb | setbMsb | getbufMsb _ | bitcopy _ _ => rfl

/-- Settles O37: it holds. A command that completes changes `out` alone, to what it drives. -/
theorem commandsDriveOnlyTheirOutput : Obligations.CommandsDriveOnlyTheirOutput := by
  intro i s t h
  obtain ⟨-, rfl⟩ := exec_next h
  refine ⟨rfl, rfl, rfl, rfl, rfl, rfl, rfl, rfl, rfl, rfl, fun _ => rfl, drives_errCode i s, drives_valueOut s,
    drives_byteOut s, fun hi => ?_⟩
  exact ⟨drives_bufOut s hi, fun k => congrArg (byteAt · k) (drives_bufOut s hi)⟩

/-- A decoded value has the bits of its field and no others. -/
theorem testBit_drives_valueOut_of_ge {i : Instr} {boff : BitVec 16} (s : State)
    (hi : i = .getbLsb ∨ i = .getbMsb ∨ i = .getbufLsb boff ∨ i = .getbufMsb boff) {d : Nat} (hd : s.cfg.S ≤ d) :
    (drives i s).valueOut.testBit d = false := by
  have hd' : ¬ d < s.cfg.S := Nat.not_lt.mpr hd
  rcases hi with rfl | rfl | rfl | rfl
  · simp [drives, testBit_truncTo, testBit_mask, hd']
  · simp [drives, testBit_truncTo, testBit_gather, hd']
  · simp [drives, testBit_truncTo, testBit_gather, hd']
  · simp [drives, testBit_truncTo, testBit_gather, hd']

/-- A single-bit copy sees one bit of its source. -/
theorem bitCopy_congr {src src' : Byte} {si si' : Nat} (dst : Byte) (di : Nat)
    (h : src.getLsbD si = src'.getLsbD si') : bitCopy dst di src si = bitCopy dst di src' si' := by
  have hbit : (src >>> si) &&& 1#8 = (src' >>> si') &&& 1#8 := by
    apply BitVec.eq_of_getLsbD_eq
    intro j _
    cases j with
    | zero => simpa using h
    | succ j => simp
  rw [bitCopy, bitCopy, hbit]

theorem bitCopy_valueByte_congr {v v' d : Nat} (dst : Byte) (di : Nat) (h : v'.testBit d = v.testBit d) :
    bitCopy dst di (valueByte v' (d / 8)) (d % 8) = bitCopy dst di (valueByte v (d / 8)) (d % 8) :=
  bitCopy_congr dst di (by rw [valueByte_bit, valueByte_bit, h])

theorem scatterByte_congr {v v' n : Nat} (place : Nat → Nat) (b : Byte) (h : ∀ d < n, v'.testBit d = v.testBit d) :
    scatterByte place v' n b = scatterByte place v n b := by
  induction n with
  | zero => rfl
  | succ n ih =>
    rw [scatterByte, scatterByte, ih fun d hd => h d (Nat.lt_succ_of_lt hd)]
    exact bitCopy_valueByte_congr _ _ (h n n.lt_succ_self)

theorem scatterBuf_congr {v v' n : Nat} (place : Nat → Nat) (m : Memory) (h : ∀ d < n, v'.testBit d = v.testBit d) :
    scatterBuf place v' n m = scatterBuf place v n m := by
  induction n with
  | zero => rfl
  | succ n ih =>
    rw [scatterBuf, scatterBuf, ih fun d hd => h d (Nat.lt_succ_of_lt hd), setStreamBit, setStreamBit,
      bitCopy_valueByte_congr _ _ (h n n.lt_succ_self)]

/-- What an encoding command drives depends on the low S bits of the value alone. -/
theorem drives_congr_field {i : Instr} {boff : BitVec 16} {s s' : State}
    (hi : i = .setbLsb ∨ i = .setbMsb ∨ i = .setbufLsb boff ∨ i = .setbufMsb boff) (hc : s'.cfg = s.cfg)
    (hinp : s'.inp = { s.inp with valueIn := s'.inp.valueIn })
    (hv : s'.inp.valueIn % 2 ^ s.cfg.S = s.inp.valueIn % 2 ^ s.cfg.S) : drives i s' = drives i s := by
  have hbit : ∀ d < s.cfg.S, s'.inp.valueIn.testBit d = s.inp.valueIn.testBit d := by
    intro d hd
    simpa [Nat.testBit_mod_two_pow, hd] using congrArg (Nat.testBit · d) hv
  generalize s'.inp.valueIn = v at hinp hv hbit
  rcases hi with rfl | rfl | rfl | rfl <;> simp only [drives, byteOutputs, bufOutputs, defaultOutputs, hc, hinp]
  · simp only [mask, Nat.and_two_pow_sub_one_eq_mod, hv]
  · rw [scatterByte_congr _ _ hbit]
  · rw [scatterBuf_congr _ _ hbit]
  · rw [scatterBuf_congr _ _ hbit]

/-- Settles O23: it holds, of the outputs a command drives. -/
theorem bitsAboveTheFieldIgnored : Obligations.BitsAboveTheFieldIgnored := by
  constructor
  · intro s t i boff hi h d hd
    obtain ⟨-, rfl⟩ := exec_next h
    exact testBit_drives_valueOut_of_ge s hi hd
  · intro s s' t t' i boff hi hc hinp hv h h'
    obtain ⟨-, rfl⟩ := exec_next h
    obtain ⟨-, rfl⟩ := exec_next h'
    exact drives_congr_field hi hc hinp hv

end Sys2Proof.Machine

/-! PROOFS. What an issue samples and answers (10_state.md R27, R32). -/

namespace Sys2Proof.Machine

open Sys2Proof

theorem runCommand_of_decode_ok {s : State} {i : Instr} (h : decode s.cfg s.inp.cmd = .ok i) :
    runCommand s = exec i s := by
  simp [runCommand, h]

theorem runCommand_of_decode_error {s : State} {e : CmdError} (h : decode s.cfg s.inp.cmd = .error e) :
    runCommand s = raise e s := by
  simp [runCommand, h]

theorem respond_of_next {s t : State} (h : runCommand s = .next t) : respond s = t.out := by
  simp [respond, h]

theorem respond_of_fault {s : State} {f : Fault} {out : Outputs} (h : runCommand s = .fault f)
    (ho : faultOuts f = some out) : respond s = out := by
  simp [respond, h, ho]

theorem respond_of_raise {s : State} {e : CmdError} (h : runCommand s = raise e s) :
    respond s = faultOutputs e s.inp := by
  obtain ⟨f, hf, ho⟩ := raise_eq e s
  exact respond_of_fault (h.trans hf) ho

theorem respond_of_completes {s : State} {i : Instr} (hd : decode s.cfg s.inp.cmd = .ok i) (hc : completes i s.cfg) :
    respond s = drives i s := by
  rcases exec_cases i s with ⟨-, h⟩ | ⟨hn, -⟩
  · exact respond_of_next ((runCommand_of_decode_ok hd).trans h)
  · exact absurd hc hn

/-- The block's response is a function of its configuration and its inputs (R27). -/
theorem respond_congr {s s' : State} (hc : s'.cfg = s.cfg) (hi : s'.inp = s.inp) : respond s' = respond s := by
  cases hd : decode s.cfg s.inp.cmd with
  | error e =>
    have hd' : decode s'.cfg s'.inp.cmd = .error e := by rw [hc, hi, hd]
    rw [respond_of_raise (runCommand_of_decode_error hd), respond_of_raise (runCommand_of_decode_error hd'), hi]
  | ok i =>
    have hd' : decode s'.cfg s'.inp.cmd = .ok i := by rw [hc, hi, hd]
    have hr := runCommand_of_decode_ok hd
    have hr' := runCommand_of_decode_ok hd'
    rcases exec_congr i hc hi with ⟨h, h'⟩ | ⟨e, h, h'⟩
    · rw [respond_of_next (hr.trans h), respond_of_next (hr'.trans h')]
    · rw [respond_of_raise (hr.trans h), respond_of_raise (hr'.trans h'), hi]

/-- An issue's error carries the block's response to the inputs sampled. -/
theorem respond_of_step_fault {s : State} {rest : List HostAction} {f : Fault} {out : Outputs} (hI : IssuesNext s rest)
    (h : step s = .fault f) (ho : faultOuts f = some out) : respond (sample s) = out := by
  rw [step_issue hI] at h
  rcases issueSampled_fault h with rfl | h
  · cases ho
  · rw [← respond_of_fault h ho]
    exact respond_congr rfl rfl

/-- Settles O36: it holds, since the decoder and the command see only the configuration and the inputs sampled. -/
theorem outputsFollowInputsAlone : Obligations.OutputsFollowInputsAlone := by
  refine ⟨fun s s' hc hi => respond_congr hc hi, fun s t rest hI h => ?_, fun s rest f out hI h hf => ?_⟩
  · obtain ⟨i, rs, hd, hc, rfl, -⟩ := step_issue_next hI h
    exact ⟨rfl, (respond_of_completes (s := sample s) hd hc).symm⟩
  · have ho : faultOuts f = some out := by
      rcases hf with rfl | rfl | rfl <;> rfl
    exact (respond_of_step_fault hI h ho).symm

theorem sampleByte_none (s : State) (driven : Byte) : sampleByte s none driven = driven := rfl

theorem sampleByte_some (s : State) (a : Nat) (driven : Byte) : sampleByte s (some a) driven = hostByte s.mem a := rfl

theorem sampleBuf_of_none {s : State} (h : s.source.buf = none) : sampleBuf s = s.inp.bufIn := by
  simp [sampleBuf, h]

theorem sampleBuf_of_some {s : State} {a : Nat} (h : s.source.buf = some a) :
    sampleBuf s = Memory.ofBytes (hostBytes s.mem a s.cfg.N) := by
  simp [sampleBuf, h]

theorem sampleValue_of_none {s : State} (h : s.source.value = none) : sampleValue s = s.inp.valueIn := by
  simp [sampleValue, h]

theorem sampleValue_of_some {s : State} {x : Nat} (h : s.source.value = some x) :
    sampleValue s = truncTo s.cfg.W (varAt s.vars x) := by
  simp [sampleValue, h]

/-- Settles O53: it holds, input by input of `sample`. -/
theorem issuePresentsTheHostsData : Obligations.IssuePresentsTheHostsData := by
  intro s t rest hI h
  obtain ⟨i, rs, -, -, rfl, -⟩ := step_issue_next hI h
  refine ⟨rfl, rfl, rfl, ?_, ?_, ?_, ?_, ?_, sampleBuf_of_none, fun x hx => sampleValue_of_some hx, sampleValue_of_none⟩
  · intro a ha
    rw [sample_byteIn, ha, sampleByte_some]
  · intro hn
    rw [sample_byteIn, hn, sampleByte_none]
  · intro a ha
    rw [sample_srcIn, ha, sampleByte_some]
  · intro hn
    rw [sample_srcIn, hn, sampleByte_none]
  · intro a ha k hk
    rw [sample_bufIn, sampleBuf_of_some ha, byteAt_hostBytes _ _ _ _ hk]

theorem raise_congr (e : CmdError) {s s' : State} (hi : s'.inp = s.inp) : raise e s' = raise e s := by
  cases e <;> simp only [raise, hi]

/-- A command's error depends on the configuration and the inputs alone. -/
theorem exec_fault_congr {i : Instr} {s s' : State} {f : Fault} (hc : s'.cfg = s.cfg) (hi : s'.inp = s.inp)
    (h : exec i s = .fault f) : exec i s' = .fault f := by
  rcases exec_congr i hc hi with ⟨hn, -⟩ | ⟨e, he, he'⟩
  · cases hn.symm.trans h
  · rw [he', raise_congr e hi, ← he, h]

theorem issueSampled_of_fault {s : State} {i : Instr} {f : Fault} (hd : decode s.cfg s.inp.cmd = .ok i)
    (h : exec i s = .fault f) : issueSampled s = .fault f := by
  simp [issueSampled, hd, h, andThen]

theorem issueSampled_of_completes {s : State} {i : Instr} (hd : decode s.cfg s.inp.cmd = .ok i)
    (hc : completes i s.cfg) :
    issueSampled s = noteAll (accessesOf s i) { s with out := drives i s, outOf := s.cfg } := by
  rcases exec_cases i s with ⟨-, h⟩ | ⟨hn, -⟩
  · simp [issueSampled, hd, h, andThen]
  · exact absurd hc hn

/-- Settles O30: it holds. Taking the issue off the host's actions changes nothing that the command sees. -/
theorem stepRunsTheDecodedCommand : Obligations.StepRunsTheDecodedCommand := by
  intro s rest i hI hd
  rw [step_issue hI]
  constructor
  · intro f h
    exact issueSampled_of_fault (s := sample { s with pending := rest }) hd (exec_fault_congr (s := sample s) rfl rfl h)
  · intro t h hs
    obtain ⟨hc, rfl⟩ := exec_next h
    have hissue := issueSampled_of_completes (s := sample { s with pending := rest }) hd hc
    obtain ⟨rs, hrs, hmem⟩ := noteAll_own
      (s := { sample { s with pending := rest } with out := drives i (sample { s with pending := rest }), outOf := s.cfg })
      (fun a ha => (accessesOf_own (sample { s with pending := rest }) i a ha).1) hs
    rw [accessesOf_sample, accessesOf_setPending] at hmem
    rw [drives_congr i (s := sample { s with pending := rest }) (s' := sample s) rfl rfl]
    exact ⟨rs, hissue.trans hrs, hmem⟩

end Sys2Proof.Machine

/-! PROOFS. What the steps of the host leave unchanged, and its accesses to its own memory (10_state.md R24, R28, R32). -/

namespace Sys2Proof.Machine

open Sys2Proof

/-- Only a turn and a selection change which configuration the present thread addresses. -/
theorem ActionEffect.cfg_eq {act : HostAction} {s t : State} (e : ActionEffect s act t) (hs : ∀ p, act ≠ .select p)
    (ht : ∀ n, act ≠ .turn n) : t.cfg = s.cfg := by
  cases e with
  | turn n => exact absurd rfl (ht n)
  | select _ => exact absurd rfl (hs _)
  | ports | store | setVar | record | issue => rfl

/-- Settles O39: it holds, read off what a step can leave. -/
theorem configurationIsNeverWritten : Obligations.ConfigurationIsNeverWritten := by
  intro s t h hs ht
  exact (step_effect h).cfg_eq (fun p e => hs p (head?_of_nextAction e nofun))
    (fun n e => ht n (head?_of_nextAction e nofun))

/-- Only an action that stores bytes changes the host's memory. -/
theorem ActionEffect.mem_eq {act : HostAction} {s t : State} (e : ActionEffect s act t) (h : ¬ act.Stores) :
    t.mem = s.mem := by
  cases e with
  | store hst => exact absurd hst h
  | turn | select | ports | setVar | record | issue => rfl

/-- Settles O52: it holds, read off what a step can leave. -/
theorem onlyStoresWriteTheHostsMemory : Obligations.OnlyStoresWriteTheHostsMemory := by
  intro s t h hb hbuf hw hc
  refine (step_effect h).mem_eq fun hst => ?_
  generalize hact : nextAction s = act at hst
  cases hst with
  | storeByte a => exact hb a (head?_of_nextAction hact nofun)
  | storeBuf a => exact hbuf a (head?_of_nextAction hact nofun)
  | write a bs => exact hw a bs (head?_of_nextAction hact nofun)
  | copy src dst n => exact hc src dst n (head?_of_nextAction hact nofun)

/-- Settles O46: it holds; each of these actions is a record update. -/
theorem drivingSetsOneInput : Obligations.DrivingSetsOneInput := by
  intro s rest w b v
  exact ⟨step_cons, step_cons, step_cons, step_cons⟩

/-- Settles O54: it holds; each of these actions is a record update. -/
theorem presentingNamesTheHostsData : Obligations.PresentingNamesTheHostsData := by
  intro s rest a
  exact ⟨step_cons, step_cons, step_cons, step_cons⟩

/-- Bytes given by a function of their index, stored from address `a` on. -/
theorem hostByte_storeBytes_map_range (m : Memory) (a n : Nat) (f : Nat → Byte) (x : Nat) :
    hostByte (storeBytes m a ((List.range n).map f)) x =
      if a ≤ x ∧ x < a + n then f (x - a) else hostByte m x := by
  rw [hostByte_storeBytes]
  by_cases ha : a ≤ x
  · by_cases hx : x < a + n
    · have hlt : x - a < n := by omega
      simp [ha, hx, hlt]
    · have hge : ¬ x - a < n := by omega
      simp [ha, hx, hge]
  · simp [ha]

theorem hostByte_storeBytes_singleton (m : Memory) (a : Nat) (b : Byte) (x : Nat) :
    hostByte (storeBytes m a [b]) x = if x = a then b else hostByte m x :=
  hostByte_write m a b x

/-- Settles O47: it holds. A store among accesses of the present thread alone cannot race. -/
theorem writeBackIsAStepOfTheHost : Obligations.WriteBackIsAStepOfTheHost := by
  refine ⟨fun s t rest hI h => ?_, fun s a rest hs => ⟨fun hp => ?_, fun hp => ?_⟩⟩
  · obtain ⟨i, rs, -, -, rfl, -⟩ := step_issue_next hI h
    rfl
  · obtain ⟨rs, hstore, hrs⟩ := store_own (s := { s with pending := rest }) a [s.out.byteOut] hs
    exact ⟨_, rs, (step_cons hp).trans hstore, hostByte_storeBytes_singleton s.mem a s.out.byteOut, hrs⟩
  · obtain ⟨rs, hstore, hrs⟩ := store_own (s := { s with pending := rest }) a (bufOutBytes s) hs
    rw [bufOutBytes_length] at hrs
    exact ⟨_, rs, (step_cons hp).trans hstore, hostByte_storeBytes_map_range s.mem a s.outOf.N _, hrs⟩

/-- A copy is a read and then a store of the bytes read, both of the present thread. -/
theorem copy_own {s : State} (src dst n : Nat) (hs : ∀ b ∈ s.accesses, b.agent = s.agent) :
    ∃ rs, hostAct (.copy src dst n) s =
        .next { s with mem := storeBytes s.mem dst (hostBytes s.mem src n), accesses := rs } ∧
      ∀ b, b ∈ rs ↔ b ∈ s.accesses ∨ b = useOf s src n false ∨ b = useOf s dst n true := by
  obtain ⟨rs, hread, hrs⟩ := note_own (a := useOf s src n false) rfl hs
  have hs' : ∀ b ∈ rs, b.agent = s.agent := by
    intro b hb
    rcases (hrs b).mp hb with hb | rfl
    · exact hs b hb
    · rfl
  obtain ⟨rs', hstore, hrs'⟩ := store_own (s := { s with accesses := rs }) dst (hostBytes s.mem src n) hs'
  refine ⟨rs', ?_, fun b => ?_⟩
  · rw [hostAct, hread]
    exact hstore
  · rw [hrs' b, hostBytes_length, ← or_assoc]
    exact or_congr_left (hrs b)

/-- Settles O59: it holds. Accesses among those of the present thread alone cannot race. -/
theorem theHostsOwnAccesses : Obligations.TheHostsOwnAccesses := by
  intro s a n dst bs rest hs
  refine ⟨fun hp => ?_, fun hp => ?_, fun hp => ?_⟩ <;> rw [step_cons hp]
  · obtain ⟨rs, hstore, hrs⟩ := store_own (s := { s with pending := rest }) a bs hs
    exact ⟨_, rs, hstore, hostByte_storeBytes bs s.mem a, hrs⟩
  · exact note_own (s := { s with pending := rest }) (a := useOf s a n false) rfl hs
  · obtain ⟨rs, hcopy, hrs⟩ := copy_own (s := { s with pending := rest }) a dst n hs
    exact ⟨_, rs, hcopy, hostByte_storeBytes_map_range s.mem dst n _, hrs⟩

end Sys2Proof.Machine

/-! PROOFS. Whole bytes of a buffer (00_scope.md R16, 20_memory.md R50 to R52, R57): what MemRead and MemWrite do to its
stream bits, and the buffer the host drives. -/

namespace Sys2Proof.Machine

open Sys2Proof

theorem memRead_lt (m : Memory) (addr n : Nat) : memRead m addr n < 2 ^ (8 * n) := by
  induction n with
  | zero => simp [memRead]
  | succ n ih =>
    have hbyte : (byteAt m (addr + n)).toNat + 1 ≤ 2 ^ 8 := (byteAt m (addr + n)).isLt
    calc memRead m addr n + (byteAt m (addr + n)).toNat * 2 ^ (8 * n)
        < ((byteAt m (addr + n)).toNat + 1) * 2 ^ (8 * n) := by rw [Nat.add_one_mul (byteAt m (addr + n)).toNat]; omega
      _ ≤ 2 ^ 8 * 2 ^ (8 * n) := Nat.mul_le_mul_right _ hbyte
      _ = 2 ^ (8 * (n + 1)) := by rw [← Nat.pow_add, Nat.mul_succ, Nat.add_comm]

/-- `MemRead` takes the stream bits of its bytes in order. -/
theorem testBit_memRead (m : Memory) (addr n d : Nat) :
    (memRead m addr n).testBit d = (decide (d < 8 * n) && streamBit m (8 * addr + d)) := by
  induction n with
  | zero => simp [memRead]
  | succ n ih =>
    rw [memRead, Nat.add_comm, Nat.mul_comm, Nat.testBit_two_pow_mul_add _ (memRead_lt m addr n)]
    by_cases hlow : d < 8 * n
    · rw [if_pos hlow, ih, decide_eq_true hlow, decide_eq_true (show d < 8 * (n + 1) by omega)]
    · rw [if_neg hlow, BitVec.testBit_toNat]
      by_cases htop : d < 8 * (n + 1)
      · rw [streamBit, show (8 * addr + d) / 8 = addr + n by omega, show (8 * addr + d) % 8 = d - 8 * n by omega,
          decide_eq_true htop, Bool.true_and]
      · rw [BitVec.getLsbD_of_ge _ _ (by omega), decide_eq_false htop, Bool.false_and]

/-- `MemWrite` sets its own bytes to the value's and leaves every other byte of the buffer alone. -/
theorem byteAt_memWrite (m : Memory) (addr v n k : Nat) :
    byteAt (memWrite m addr v n) k = if addr ≤ k ∧ k < addr + n then valueByte v (k - addr) else byteAt m k := by
  induction n with
  | zero => rw [if_neg (by omega), memWrite]
  | succ n ih =>
    rw [memWrite, byteAt_write, ih]
    by_cases hk : k = addr + n
    · rw [if_pos hk, if_pos (by omega), show k - addr = n by omega, valueByte]
    · rw [if_neg hk]
      exact if_congr (by omega) rfl rfl

theorem streamBit_memWrite (m : Memory) (addr v n i : Nat) :
    streamBit (memWrite m addr v n) i =
      if 8 * addr ≤ i ∧ i < 8 * addr + 8 * n then v.testBit (i - 8 * addr) else streamBit m i := by
  rw [streamBit, byteAt_memWrite]
  by_cases hi : 8 * addr ≤ i ∧ i < 8 * addr + 8 * n
  · rw [if_pos hi, if_pos (by omega), valueByte_getLsbD, decide_eq_true (Nat.mod_lt i (by decide)), Bool.true_and,
      show 8 * (i / 8 - addr) + i % 8 = i - 8 * addr by omega]
  · rw [if_neg hi, if_neg (by omega), streamBit]

/-- Value bits copied to consecutive stream bits from `base` on (R125): the span has the value's bits, the rest stays. -/
theorem streamBit_scatterBuf_span (m : Memory) (base v n i : Nat) :
    streamBit (scatterBuf (fun d => base + d) v n m) i =
      if base ≤ i ∧ i < base + n then v.testBit (i - base) else streamBit m i := by
  by_cases hi : base ≤ i ∧ i < base + n
  · obtain ⟨d, rfl⟩ := Nat.exists_eq_add_of_le hi.1
    rw [if_pos hi, Nat.add_sub_cancel_left]
    exact streamBit_scatterBuf_placed (fun d => base + d) v n m (fun _ _ _ _ => Nat.add_left_cancel) d (by omega)
  · rw [if_neg hi]
    exact streamBit_scatterBuf_of_not_placed _ v n m i (fun d hd => by omega)

/-- Gathering the stream bits of whole bytes is `MemRead`. -/
theorem gather_streamBit_eq_memRead (m : Memory) (addr n : Nat) :
    gather (fun d => streamBit m (8 * addr + d)) (8 * n) = memRead m addr n :=
  Nat.eq_of_testBit_eq fun d => by rw [testBit_gather, testBit_memRead]

/-- Scattering a value over the stream bits of whole bytes is `MemWrite`, byte for byte. -/
theorem byteAt_scatterBuf_eq_memWrite (m : Memory) (addr v n k : Nat) :
    byteAt (scatterBuf (fun d => 8 * addr + d) v (8 * n) m) k = byteAt (memWrite m addr v n) k :=
  byteAt_eq_of_streamBit k fun j _ => by rw [streamBit_scatterBuf_span, streamBit_memWrite]

theorem exec_of_completes {i : Instr} {s : State} (hc : completes i s.cfg) :
    exec i s = .next { s with out := drives i s } := by
  rcases exec_cases i s with ⟨-, h⟩ | ⟨hn, -⟩
  · exact h
  · exact absurd hc hn

/-- Settles O24: it holds. The field fits the value port, as S ≤ W, so nothing that `MemRead` reads is cut off. -/
theorem wholeByteFieldsMoveBytewise : Obligations.WholeByteFieldsMoveBytewise := by
  intro s boff n hP hS hfit
  have hbase : fieldBase s.cfg boff = 8 * boff.toNat := by rw [fieldBase, hP, Nat.zero_add]
  have hspan : s.cfg.P + 8 * boff.toNat + s.cfg.S ≤ 8 * s.cfg.N := by omega
  have hSW : 8 * n ≤ s.cfg.W := by
    obtain ⟨-, -, hSW, -⟩ := s.cfg.legal
    omega
  constructor
  · refine ⟨_, exec_of_completes (i := .getbufLsb boff) hspan, ?_⟩
    have hlt : memRead s.inp.bufIn boff.toNat n < 2 ^ s.cfg.W :=
      (memRead_lt _ _ n).trans_le (Nat.pow_le_pow_right (by decide) hSW)
    rw [drives, valueOutputs_valueOut, hbase, hS, gather_streamBit_eq_memRead, truncTo_of_lt hlt]
  · intro hset
    refine ⟨_, exec_of_completes (i := .setbufLsb boff) ⟨hset, hspan⟩, fun k => ?_⟩
    rw [drives, bufOutputs_bufOut, hbase, hS, byteAt_scatterBuf_eq_memWrite]

/-- Settles O45: it holds. Stream bit `i` of a buffer is by its definition a bit of byte `i div 8`. -/
theorem presentedBufferIsTheStream : Obligations.PresentedBufferIsTheStream := by
  intro s bs rest hp
  rw [step_cons hp]
  constructor
  · intro hl
    refine ⟨Memory.ofBytes bs, if_pos hl, byteAt_ofBytes bs, fun i hi => ?_⟩
    rw [streamBit, byteAt_ofBytes bs (i / 8) hi]
  · exact fun hl => if_neg hl

end Sys2Proof.Machine

/-! PROOFS. What a command reads (20_memory.md R59): its present inputs alone, and of the host's memory exactly the bytes
that it puts on record (log 13). -/

namespace Sys2Proof.Machine

open Sys2Proof

/-- Settles O38: it holds. A command that completes leaves the configuration and the inputs, and its answer is theirs. -/
theorem commandsAreIdempotent : Obligations.CommandsAreIdempotent := by
  intro i s t h
  obtain ⟨-, rfl⟩ := exec_next h
  rcases exec_congr i (s := s) (s' := { s with out := drives i s }) rfl rfl with ⟨-, hagain⟩ | ⟨e, hraise, -⟩
  · exact hagain
  · exact absurd (hraise.symm.trans h) (raise_ne_next e s _)

/-- One of the accesses `as` is of the byte at address `x`. -/
def Covers (as : List Access) (x : Nat) : Prop := ∃ r ∈ as, r.lo ≤ x ∧ x < r.hi

theorem covers_append (as bs : List Access) (x : Nat) : Covers (as ++ bs) x ↔ Covers as x ∨ Covers bs x := by
  simp only [Covers, List.mem_append, or_and_right, exists_or]

theorem covers_readFrom (s : State) (source : Option Nat) (lo hi x : Nat) :
    Covers (readFrom s source lo hi) x ↔ ∃ a, source = some a ∧ a + lo ≤ x ∧ x < a + hi := by
  cases source <;> simp [Covers, readFrom]

/-- A byte port reads the one byte it is presented from. -/
theorem covers_readFrom_byte (s : State) (source : Option Nat) (x : Nat) :
    Covers (readFrom s source 0 1) x ↔ source = some x := by
  rw [covers_readFrom]
  constructor
  · rintro ⟨a, rfl, hlo, hhi⟩
    exact congrArg some (by omega)
  · intro h
    exact ⟨x, h, by omega, by omega⟩

theorem covers_readFrom_buf (s : State) (source : Option Nat) (n x : Nat) :
    Covers (readFrom s source 0 n) x ↔ ∃ a k, source = some a ∧ k < n ∧ x = a + k := by
  rw [covers_readFrom]
  constructor
  · rintro ⟨a, ha, hlo, hhi⟩
    exact ⟨a, x - a, ha, by omega, by omega⟩
  · rintro ⟨a, k, ha, hk, rfl⟩
    exact ⟨a, ha, by omega, by omega⟩

/-- The bytes from that of the first bit of a field to that of its last are those that hold one of its bits: a byte past the
first holds the field's bit that is its own bit 0. -/
theorem covers_fieldRead (s : State) (boff : BitVec 16) (x : Nat) :
    Covers (fieldRead s boff) x ↔
      ∃ a d, s.source.buf = some a ∧ d < s.cfg.S ∧ x = a + (s.cfg.P + 8 * boff.toNat + d) / 8 := by
  obtain ⟨-, hS, -⟩ := s.cfg.legal
  rw [fieldRead, covers_readFrom, fieldBase, fieldEnd]
  constructor
  · rintro ⟨a, ha, hlo, hhi⟩
    exact ⟨a, 8 * (x - a) - (s.cfg.P + 8 * boff.toNat), ha, by omega, by omega⟩
  · rintro ⟨a, d, ha, hd, rfl⟩
    exact ⟨a, ha, by omega, by omega⟩

/-- The accesses of a command are of exactly the bytes that it reads. -/
theorem covers_accessesOf (s : State) (i : Instr) (x : Nat) : Covers (accessesOf s i) x ↔ ReadsByte s i x := by
  cases i with
  | getbLsb | setbLsb | getbMsb | setbMsb => exact covers_readFrom_byte s s.source.byte x
  | getbufLsb boff | getbufMsb boff => exact covers_fieldRead s boff x
  | setbufLsb _ | setbufMsb _ => exact covers_readFrom_buf s s.source.buf s.cfg.N x
  | bitcopy _ _ =>
    exact (covers_append _ _ x).trans (or_congr (covers_readFrom_byte s _ x) (covers_readFrom_byte s _ x))

/-- Settles O55: it holds. The record gains the command's accesses alone. -/
theorem commandsRecordWhatTheyRead : Obligations.CommandsRecordWhatTheyRead := by
  intro s t rest i hI hd h
  obtain ⟨j, rs, hdj, -, rfl, hrs⟩ := step_issue_next hI h
  cases hd.symm.trans hdj
  refine ⟨fun r hr => (hrs r).mpr (.inl hr), fun x hx => ?_, fun r hr => ?_⟩
  · obtain ⟨r, hr, hlo, hhi⟩ := (covers_accessesOf s i x).mpr hx
    exact ⟨r, (hrs r).mpr (.inr hr), (accessesOf_own s i r hr).1, hlo, hhi⟩
  · refine ((hrs r).mp hr).imp_right fun hr => ?_
    obtain ⟨hagent, hreads⟩ := accessesOf_own s i r hr
    exact ⟨hagent, hreads, fun x hlo hhi => (covers_accessesOf s i x).mp ⟨r, hr, hlo, hhi⟩⟩

end Sys2Proof.Machine

/-! PROOFS. Decoding and encoding (30_encoding.md R71 to R80): when a word decodes, and that encoding is its inverse. -/

namespace Sys2Proof

/-- Every reserved field of a word is zero, and so is every field its opcode does not use (R74). -/
structure UnusedFieldsZero (w : CmdWord) : Prop where
  rsv0 : rsv0Of w = 0#5
  rsv1 : rsv1Of w = 0#1
  rsv2 : rsv2Of w = 0#1
  indices : opWithoutIndices (opOf w) = true → didxOf w = 0#3 ∧ sidxOf w = 0#3
  offset : opWithoutOffset (opOf w) = true → boffOf w = 0#16

theorem unusedFieldsZero_encode (i : Instr) : UnusedFieldsZero (encode i) := by
  suffices h : Laws.UnusedFields.Statement i by
    obtain ⟨rsv0, rsv1, rsv2, indices, offset⟩ := h
    exact ⟨rsv0, rsv1, rsv2, indices, offset⟩
  cases i with
  | getbLsb => exact Laws.UnusedFields.getbLsb
  | setbLsb => exact Laws.UnusedFields.setbLsb
  | getbufLsb boff => exact Laws.UnusedFields.getbufLsb boff
  | setbufLsb boff => exact Laws.UnusedFields.setbufLsb boff
  | getbMsb => exact Laws.UnusedFields.getbMsb
  | setbMsb => exact Laws.UnusedFields.setbMsb
  | getbufMsb boff => exact Laws.UnusedFields.getbufMsb boff
  | setbufMsb boff => exact Laws.UnusedFields.setbufMsb boff
  | bitcopy didx sidx => exact Laws.UnusedFields.bitcopy didx sidx

/-- The words that decode, and to what: the checks of R76, all of them passed. -/
theorem decode_eq_ok_iff {cfg : Config} {w : CmdWord} {i : Instr} :
    decode cfg w = .ok i ↔
      commandOf cfg.order (opOf w) (didxOf w) (sidxOf w) (boffOf w) = some i ∧
        (opOf w = 4#3 → cfg.hasSetbuf = true) ∧ UnusedFieldsZero w := by
  rw [decode]
  constructor
  · intro h
    split at h
    · cases h
    · rename_i j hj
      split_ifs at h with hset hrsv hidx hoff
      cases h
      push Not at hrsv hidx hoff
      obtain ⟨h0, h1, h2⟩ := hrsv
      exact ⟨hj, by simpa using hset, h0, h1, h2, hidx, hoff⟩
  · rintro ⟨hcmd, hset, h0, h1, h2, hidx, hoff⟩
    simp only [hcmd]
    rw [if_neg, if_neg, if_neg, if_neg] <;> push Not
    · exact hoff
    · exact hidx
    · exact ⟨h0, h1, h2⟩
    · simpa using hset

/-- The fields of a command's word select the command, on an instance of the command's order (R75). -/
theorem commandOf_encode {order : Order} {i : Instr} (h : i.order? = none ∨ i.order? = some order) :
    commandOf order (opOf (encode i)) (didxOf (encode i)) (sidxOf (encode i)) (boffOf (encode i)) = some i := by
  cases i with
  | bitcopy didx sidx => simp [encode, commandOf]
  | _ =>
    obtain rfl := by simpa [Instr.order?] using h
    simp [encode, commandOf]

theorem opOf_encode_eq_four_iff (i : Instr) : opOf (encode i) = 4#3 ↔ i.isSetbuf = true := by
  cases i <;> simp [encode, Instr.isSetbuf]

/-- Settles O25: it holds. Each check of R76 passes on the command's own word. -/
theorem decodeOfEncode : Obligations.DecodeOfEncode := by
  rintro cfg i ⟨horder, hset⟩
  exact decode_eq_ok_iff.mpr
    ⟨commandOf_encode horder, fun hop => hset ((opOf_encode_eq_four_iff i).mp hop), unusedFieldsZero_encode i⟩

/-- An opcode selects commands of the instance's order alone (R75). -/
theorem order?_of_commandOf {order : Order} {op didx sidx : BitVec 3} {boff : BitVec 16} {i : Instr}
    (h : commandOf order op didx sidx boff = some i) : i.order? = none ∨ i.order? = some order := by
  unfold commandOf at h
  split at h <;> cases h
  case h_9 => exact .inl rfl -- BITCOPY, of both orders.
  all_goals exact .inr rfl

/-- Where the operands that its opcode does not use are zero, the command selected has the word of these fields. -/
theorem encode_of_commandOf {order : Order} {op didx sidx : BitVec 3} {boff : BitVec 16} {i : Instr}
    (h : commandOf order op didx sidx boff = some i)
    (hidx : opWithoutIndices op = true → didx = 0#3 ∧ sidx = 0#3)
    (hoff : opWithoutOffset op = true → boff = 0#16) : encode i = encodeFields op didx sidx boff := by
  unfold commandOf at h
  split at h <;> cases h <;> rename_i hop <;> obtain ⟨-, rfl⟩ := BitVec.toNat_eq_nat.mp hop
  case h_9 => rw [hoff rfl, encode] -- BITCOPY has its indices and no offset.
  -- GETBUF and SETBUF have an offset and no indices.
  case h_5 | h_6 | h_7 | h_8 =>
    obtain ⟨rfl, rfl⟩ := hidx rfl
    rfl
  -- GETB and SETB have no operand.
  all_goals
    obtain ⟨rfl, rfl⟩ := hidx rfl
    rw [hoff rfl, encode]

/-- Settles O26: it holds. The checks of R76 leave no bit of the word outside the fields its command is made of. -/
theorem encodeOfDecode : Obligations.EncodeOfDecode := by
  intro cfg w i h
  obtain ⟨hcmd, hset, hzero⟩ := decode_eq_ok_iff.mp h
  have hword : encode i = w :=
    calc encode i = encodeFields (opOf w) (didxOf w) (sidxOf w) (boffOf w) :=
          encode_of_commandOf hcmd hzero.indices hzero.offset
      _ = w := (cmd_eq_encodeFields hzero.rsv0 hzero.rsv1 hzero.rsv2).symm
  refine ⟨⟨order?_of_commandOf hcmd, fun hi => hset ?_⟩, hword⟩
  rw [← hword]
  exact (opOf_encode_eq_four_iff i).mpr hi

/-- Opcode by opcode, the MSB instance has the mirror of the LSB instance's command (R75). -/
theorem commandOf_msb (op didx sidx : BitVec 3) (boff : BitVec 16) :
    commandOf .msb op didx sidx boff = (commandOf .lsb op didx sidx boff).map mirrorOf := by
  unfold commandOf
  match op.toNat with
  | 0 | 1 | 2 | 3 | 4 | 5 | _ + 6 => rfl

/-- Settles O28: it holds. The order enters decoding only where the opcode selects its command. -/
theorem orderPicksTheCodec : Obligations.OrderPicksTheCodec := by
  intro cfg cfg' w hlsb hcfg'
  have hmsb : cfg'.order = .msb := by rw [hcfg']
  have hset : cfg'.hasSetbuf = cfg.hasSetbuf := by rw [hcfg']
  rw [decode, decode, hlsb, hmsb, hset, commandOf_msb]
  cases commandOf .lsb (opOf w) (didxOf w) (sidxOf w) (boffOf w) with
  | none => rfl
  | some i =>
    simp only [Option.map_some]
    split_ifs <;> rfl

/-- A word with no bit indices: its offset above its opcode (R80). -/
theorem encodeFields_boff (op : BitVec 3) (boff : BitVec 16) :
    encodeFields op 0#3 0#3 boff = (boff.setWidth 32 <<< 16) ||| op.setWidth 32 := by
  simp [encodeFields]

/-- A word with no byte offset: its bit indices above its opcode (R80). -/
theorem encodeFields_indices (op didx sidx : BitVec 3) :
    encodeFields op didx sidx 0#16 = (sidx.setWidth 32 <<< 12) ||| (didx.setWidth 32 <<< 8) ||| op.setWidth 32 := by
  simp [encodeFields]

/-- The commands of the instance at reset are BITCOPY and the LSB commands, SETBUF among them. -/
theorem decode_atReset_encode {i : Instr} (h : i.order? = none ∨ i.order? = some .lsb) :
    decode Config.atReset (encode i) = .ok i :=
  decodeOfEncode Config.atReset i ⟨h, fun _ => rfl⟩

/-- Settles O29: it holds. Each word of the table is the encoding of its LSB command, which decodes from it. -/
theorem wordsOfEachForm : Obligations.WordsOfEachForm := by
  have hget : ∀ k : BitVec 16, encode (.getbufLsb k) = (k.setWidth 32 <<< 16) ||| 0x3#32 := encodeFields_boff 3#3
  have hset : ∀ k : BitVec 16, encode (.setbufLsb k) = (k.setWidth 32 <<< 16) ||| 0x4#32 := encodeFields_boff 4#3
  have hcopy : ∀ d s : BitVec 3, encode (.bitcopy d s) = (s.setWidth 32 <<< 12) ||| (d.setWidth 32 <<< 8) ||| 0x5#32 :=
    encodeFields_indices 5#3
  refine ⟨rfl, rfl, rfl, rfl, rfl, rfl, rfl, rfl, rfl, hget, hset, hcopy, ?_⟩
  have hdget : ∀ k : BitVec 16, decode Config.atReset ((k.setWidth 32 <<< 16) ||| 0x3#32) = .ok (.getbufLsb k) :=
    fun k => hget k ▸ decode_atReset_encode (.inr rfl)
  have hdset : ∀ k : BitVec 16, decode Config.atReset ((k.setWidth 32 <<< 16) ||| 0x4#32) = .ok (.setbufLsb k) :=
    fun k => hset k ▸ decode_atReset_encode (.inr rfl)
  have hdcopy : ∀ d s : BitVec 3,
      decode Config.atReset ((s.setWidth 32 <<< 12) ||| (d.setWidth 32 <<< 8) ||| 0x5#32) = .ok (.bitcopy d s) :=
    fun d s => hcopy d s ▸ decode_atReset_encode (.inl rfl)
  exact ⟨decode_atReset_encode (i := .getbLsb) (.inr rfl), decode_atReset_encode (i := .setbLsb) (.inr rfl),
    hdget 0#16, hdget 1#16, hdset 0#16, hdset 1#16, hdcopy 0#3 0#3, hdcopy 7#3 3#3, hdget, hdset, hdcopy,
    by decide, by decide⟩

end Sys2Proof

/-! PROOFS. The host's variables (30_encoding.md R81). -/

namespace Sys2Proof.Machine

open Sys2Proof

/-- Settles O58: it holds; each of these actions is one write among the thread's variables. -/
theorem variablesHoldWhatIsStored : Obligations.VariablesHoldWhatIsStored := by
  intro s x v rest
  exact ⟨fun hp => ⟨_, step_cons hp, varAt_write s.vars x s.out.valueOut⟩,
    fun hp => ⟨_, step_cons hp, varAt_write s.vars x s.out.errCode.toNat⟩,
    fun hp => ⟨_, step_cons hp, varAt_write s.vars x v⟩⟩

end Sys2Proof.Machine

/-! PROOFS. The single-bit copy and its command (40_bit_copy.md R101 to R104). -/

namespace Sys2Proof.Machine

open Sys2Proof

/-- Settles O9: it holds. The byte BITCOPY drives is the single-bit copy, and no configuration makes it fault. -/
theorem bitcopyReplacesOneBit : Obligations.BitcopyReplacesOneBit := by
  intro s didx sidx
  exact ⟨bitCopy s.inp.byteIn didx.toNat s.inp.srcIn sidx.toNat, rfl,
    bitCopy_getLsbD s.inp.byteIn s.inp.srcIn didx.isLt sidx.isLt⟩

/-- A byte is its eight bits, so the two facts leave no choice of byte. -/
theorem eq_bitCopy_iff (dst src : Byte) {di si : Nat} (hd : di < 8) (hs : si < 8) {b : Byte} :
    b = bitCopy dst di src si ↔
      (∀ j < 8, j ≠ di → b.getLsbD j = dst.getLsbD j) ∧ b.getLsbD di = src.getLsbD si := by
  constructor
  · rintro rfl
    refine ⟨fun j hj hne => ?_, ?_⟩
    · rw [bitCopy_getLsbD dst src hd hs j hj, if_neg hne]
    · rw [bitCopy_getLsbD dst src hd hs di hd, if_pos rfl]
  · rintro ⟨hkept, hcopied⟩
    apply BitVec.eq_of_getLsbD_eq
    intro j hj
    rw [bitCopy_getLsbD dst src hd hs j hj]
    split_ifs with h
    · exact h ▸ hcopied
    · exact hkept j hj h

/-- Settles O10: it holds. -/
theorem bitCopyDefinedByTwoFacts : Obligations.BitCopyDefinedByTwoFacts :=
  fun dst src _ _ hd hs _ => eq_bitCopy_iff dst src hd hs

theorem bitCopy_comm (x a b : Byte) {d1 d2 s1 s2 : Nat} (hd1 : d1 < 8) (hd2 : d2 < 8) (hs1 : s1 < 8) (hs2 : s2 < 8)
    (hne : d1 ≠ d2) : bitCopy (bitCopy x d1 a s1) d2 b s2 = bitCopy (bitCopy x d2 b s2) d1 a s1 := by
  apply BitVec.eq_of_getLsbD_eq
  intro j hj
  rw [bitCopy_getLsbD _ _ hd2 hs2 j hj, bitCopy_getLsbD _ _ hd1 hs1 j hj, bitCopy_getLsbD _ _ hd1 hs1 j hj,
    bitCopy_getLsbD _ _ hd2 hs2 j hj]
  apply ite_ite_comm
  intro h2 h1
  exact hne (h1.symm.trans h2)

theorem bitCopy_bitCopy_same (x a b : Byte) {d s1 s2 : Nat} (hd : d < 8) (hs1 : s1 < 8) (hs2 : s2 < 8) :
    bitCopy (bitCopy x d a s1) d b s2 = bitCopy x d b s2 := by
  obtain ⟨hkept1, -⟩ := (eq_bitCopy_iff x a hd hs1).mp rfl
  obtain ⟨hkept2, hcopied⟩ := (eq_bitCopy_iff (bitCopy x d a s1) b hd hs2).mp rfl
  exact (eq_bitCopy_iff x b hd hs2).mpr ⟨fun j hj hne => (hkept2 j hj hne).trans (hkept1 j hj hne), hcopied⟩

/-- Settles O11: it holds. -/
theorem bitCopyComposes : Obligations.BitCopyComposes := by
  intro x a b d1 d2 s1 s2 hd1 hd2 hs1 hs2
  exact ⟨bitCopy_comm x a b hd1 hd2 hs1 hs2, bitCopy_bitCopy_same x a b hd1 hs1 hs2⟩

/-- Settles O12: it holds, since the byte itself meets the two facts. -/
theorem bitCopyOntoItself : Obligations.BitCopyOntoItself := by
  intro x i hi
  have h : x = bitCopy x i x i := (eq_bitCopy_iff x x hi hi).mpr ⟨fun _ _ _ => rfl, rfl⟩
  exact h.symm

end Sys2Proof.Machine

/-! PROOFS. The bitfield_extractor (41_extractor_lsb.md R122 to R129): its four commands bit by bit, and from these bits its
laws. -/

namespace Sys2Proof.Machine

open Sys2Proof

/-- A field's value fits the value port, as S ≤ W (R12). -/
theorem truncTo_of_lt_field {cfg : Config} {v : Nat} (h : v < 2 ^ cfg.S) : truncTo cfg.W v = v := by
  obtain ⟨-, -, hSW, -⟩ := cfg.legal
  exact truncTo_of_lt (h.trans_le (Nat.pow_le_pow_right (by decide) hSW))

theorem and_mask_lt (v n : Nat) : v &&& mask n < 2 ^ n := by
  rw [mask, Nat.and_two_pow_sub_one_eq_mod]
  exact Nat.mod_lt _ (Nat.two_pow_pos n)

theorem drives_getbLsb_valueOut (s : State) :
    (drives .getbLsb s).valueOut = (s.inp.byteIn.toNat >>> s.cfg.P) &&& mask s.cfg.S :=
  truncTo_of_lt_field (and_mask_lt _ _)

theorem testBit_drives_getbLsb (s : State) (d : Nat) :
    (drives .getbLsb s).valueOut.testBit d = (decide (d < s.cfg.S) && s.inp.byteIn.getLsbD (s.cfg.P + d)) := by
  rw [drives_getbLsb_valueOut, Nat.testBit_and, testBit_mask, Nat.testBit_shiftRight, BitVec.testBit_toNat, Bool.and_comm]

theorem drives_getbufLsb_valueOut (s : State) (boff : BitVec 16) :
    (drives (.getbufLsb boff) s).valueOut =
      gather (fun d => streamBit s.inp.bufIn (fieldBase s.cfg boff + d)) s.cfg.S :=
  truncTo_of_lt_field (gather_lt _ _)

theorem testBit_drives_getbufLsb (s : State) (boff : BitVec 16) (d : Nat) :
    (drives (.getbufLsb boff) s).valueOut.testBit d =
      (decide (d < s.cfg.S) && streamBit s.inp.bufIn (s.cfg.P + 8 * boff.toNat + d)) := by
  rw [drives_getbufLsb_valueOut, testBit_gather, fieldBase]

theorem getLsbD_ofNat_shiftLeft (v p : Nat) {j : Nat} (hj : j < 8) :
    (BitVec.ofNat 8 (v <<< p)).getLsbD j = (decide (p ≤ j) && v.testBit (j - p)) := by
  rw [BitVec.getLsbD_ofNat, Nat.testBit_shiftLeft, decide_eq_true hj, Bool.true_and]

theorem getLsbD_drives_setbLsb (s : State) {j : Nat} (hj : j < 8) :
    (drives .setbLsb s).byteOut.getLsbD j =
      if s.cfg.P ≤ j ∧ j < s.cfg.P + s.cfg.S then s.inp.valueIn.testBit (j - s.cfg.P) else s.inp.byteIn.getLsbD j := by
  rw [drives, byteOutputs_byteOut, BitVec.getLsbD_or, BitVec.getLsbD_and, BitVec.getLsbD_not, decide_eq_true hj,
    getLsbD_ofNat_shiftLeft _ _ hj, getLsbD_ofNat_shiftLeft _ _ hj, Nat.testBit_and, testBit_mask]
  by_cases hP : s.cfg.P ≤ j
  · by_cases hS : j < s.cfg.P + s.cfg.S
    · simp [hP, hS, show j - s.cfg.P < s.cfg.S by omega]
    · simp [hS, show ¬ j - s.cfg.P < s.cfg.S by omega]
  · simp [hP]

theorem streamBit_drives_setbufLsb (s : State) (boff : BitVec 16) (i : Nat) :
    streamBit (drives (.setbufLsb boff) s).bufOut i =
      if s.cfg.P + 8 * boff.toNat ≤ i ∧ i < s.cfg.P + 8 * boff.toNat + s.cfg.S
      then s.inp.valueIn.testBit (i - (s.cfg.P + 8 * boff.toNat)) else streamBit s.inp.bufIn i :=
  streamBit_scatterBuf_span s.inp.bufIn (fieldBase s.cfg boff) s.inp.valueIn s.cfg.S i

/-- Settles O1: it holds. The shifted and masked byte is a field's value, so the port cuts nothing off it; RANGE carries
R185's outputs by the definition of `raise`. -/
theorem getbLsbShiftsAndMasks : Obligations.GetbLsbShiftsAndMasks := by
  intro s
  refine ⟨fun h => ?_, withByteForm_range (drives .getbLsb s), rfl⟩
  rw [exec_of_completes (i := .getbLsb) h, ← mask, ← drives_getbLsb_valueOut]
  rfl

/-- Settles O2: it holds. R123's expression is what the command drives, and its bits are those of the span and of the byte. -/
theorem setbLsbWritesTheSpan : Obligations.SetbLsbWritesTheSpan := by
  intro s
  refine ⟨fun h => ⟨(drives .setbLsb s).byteOut, exec_of_completes (i := .setbLsb) h, rfl, fun j hj => ?_⟩,
    withByteForm_range (drives .setbLsb s), rfl⟩
  exact getLsbD_drives_setbLsb s hj

/-- Settles O3: it holds, bit by bit of the gathered value. -/
theorem getbufLsbReadsTheSpan : Obligations.GetbufLsbReadsTheSpan := by
  intro s boff
  exact ⟨fun h => ⟨(drives (.getbufLsb boff) s).valueOut, exec_of_completes (i := .getbufLsb boff) h,
      testBit_drives_getbufLsb s boff⟩,
    withBufField_range (drives (.getbufLsb boff) s), encodeFields_boff 3#3 boff⟩

/-- Settles O4: it holds. SETBUF's presence is checked before its range (R184). -/
theorem setbufLsbWritesTheSpan : Obligations.SetbufLsbWritesTheSpan := by
  intro s boff
  refine ⟨fun hset h => ?_, fun hset h => ?_, withSetbuf_absent (drives (.setbufLsb boff) s), encodeFields_boff 4#3 boff⟩
  · exact ⟨(drives (.setbufLsb boff) s).bufOut, exec_of_completes (i := .setbufLsb boff) ⟨hset, h⟩,
      streamBit_drives_setbufLsb s boff⟩
  · exact (withSetbuf_present (drives (.setbufLsb boff) s) hset).trans (withBufField_range _ h)

/-- Value bits copied to consecutive byte bits from `base` on (R126): the span has the value's bits, the rest stays. -/
theorem getLsbD_scatterByte_span (b : Byte) (base v n : Nat) (h : base + n ≤ 8) {j : Nat} (hj : j < 8) :
    (scatterByte (fun d => base + d) v n b).getLsbD j =
      if base ≤ j ∧ j < base + n then v.testBit (j - base) else b.getLsbD j := by
  by_cases hin : base ≤ j ∧ j < base + n
  · obtain ⟨d, rfl⟩ := Nat.exists_eq_add_of_le hin.1
    rw [if_pos hin, Nat.add_sub_cancel_left]
    exact scatterByte_placed (fun d => base + d) v n b (fun d hd => by omega) (fun _ _ _ _ => Nat.add_left_cancel) d
      (by omega)
  · rw [if_neg hin]
    exact scatterByte_of_not_placed _ v n b j hj (fun d hd => by omega) (fun d hd => by omega)

/-- Clearing the span and or-ing in the value is the copy of its bits one by one (R126). -/
theorem drives_setbLsb_byteOut_eq_scatterByte {s : State} (h : s.cfg.P + s.cfg.S ≤ 8) :
    (drives .setbLsb s).byteOut = scatterByte (fun d => s.cfg.P + d) s.inp.valueIn s.cfg.S s.inp.byteIn :=
  BitVec.eq_of_getLsbD_eq fun _ hj => by rw [getLsbD_drives_setbLsb s hj, getLsbD_scatterByte_span _ _ _ _ h hj]

theorem scatterByte_eq_foldl (place : Nat → Nat) (v n : Nat) (b : Byte) :
    scatterByte place v n b =
      (List.range n).foldl (fun b d => bitCopy b (place d) (valueByte v (d / 8)) (d % 8)) b := by
  induction n with
  | zero => rfl
  | succ n ih => rw [List.range_succ, List.foldl_append, ← ih]; rfl

/-- Settles O13: it holds. The fold of BitCopy is the model's `scatterByte`. -/
theorem lsbByteFormsAreBitByBit : Obligations.LsbByteFormsAreBitByBit := by
  intro s h
  refine ⟨⟨_, exec_of_completes (i := .getbLsb) h, fun d hd => ?_⟩, ⟨_, exec_of_completes (i := .setbLsb) h, ?_⟩⟩
  · rw [testBit_drives_getbLsb, decide_eq_true hd, Bool.true_and]
  · exact (drives_setbLsb_byteOut_eq_scatterByte h).trans (scatterByte_eq_foldl _ _ _ _)

/-- The first eight stream bits are byte 0's. -/
theorem streamBit_of_lt_eight (m : Memory) {j : Nat} (hj : j < 8) : streamBit m j = (byteAt m 0).getLsbD j := by
  rw [streamBit, Nat.div_eq_of_lt hj, Nat.mod_eq_of_lt hj]

/-- A field within a byte lies within every buffer, from offset 0. -/
theorem byteField_fits_buffer {cfg : Config} (h : cfg.P + cfg.S ≤ 8) : cfg.P + 8 * (0#16).toNat + cfg.S ≤ 8 * cfg.N := by
  obtain ⟨-, -, -, -, hN, -⟩ := cfg.legal
  simp only [BitVec.toNat_ofNat]
  omega

/-- Settles O14: it holds. At offset 0 the stream bits of the field are the same bits of byte 0. -/
theorem lsbByteAndBufferFormsAgree : Obligations.LsbByteAndBufferFormsAgree := by
  intro s h hbyte
  have hfit := byteField_fits_buffer h
  refine ⟨⟨_, _, exec_of_completes (i := .getbLsb) h, exec_of_completes (i := .getbufLsb 0#16) hfit, ?_⟩, fun hset =>
    ⟨_, _, exec_of_completes (i := .setbLsb) h, exec_of_completes (i := .setbufLsb 0#16) ⟨hset, hfit⟩, ?_⟩⟩
  · apply Nat.eq_of_testBit_eq
    intro d
    rw [testBit_drives_getbLsb, testBit_drives_getbufLsb]
    by_cases hd : d < s.cfg.S
    · rw [← hbyte, ← streamBit_of_lt_eight _ (show s.cfg.P + d < 8 by omega)]
      rfl
    · rw [decide_eq_false hd, Bool.false_and, Bool.false_and]
  · apply BitVec.eq_of_getLsbD_eq
    intro j hj
    rw [← streamBit_of_lt_eight _ hj, streamBit_drives_setbufLsb, getLsbD_drives_setbLsb s hj,
      streamBit_of_lt_eight _ hj, hbyte]
    rfl

/-- A number that has just the low `n` bits of `v`, where `v` has no others, is `v`. -/
theorem eq_of_testBit_low {u v n : Nat} (hv : v < 2 ^ n) (h : ∀ d, u.testBit d = (decide (d < n) && v.testBit d)) :
    u = v := by
  rw [← Nat.mod_eq_of_lt hv]
  exact Nat.eq_of_testBit_eq fun d => by rw [h, Nat.testBit_mod_two_pow]

/-- GETB of the byte that SETB drives reads the low S bits of the value back. -/
theorem testBit_getbLsb_of_setbLsb {s s' : State} (h : s.cfg.P + s.cfg.S ≤ 8) (hc : s'.cfg = s.cfg)
    (hb : s'.inp.byteIn = (drives .setbLsb s).byteOut) (d : Nat) :
    (drives .getbLsb s').valueOut.testBit d = (decide (d < s.cfg.S) && s.inp.valueIn.testBit d) := by
  rw [testBit_drives_getbLsb, hc, hb]
  by_cases hd : d < s.cfg.S
  · rw [getLsbD_drives_setbLsb s (by omega), if_pos (by omega), Nat.add_sub_cancel_left]
  · rw [decide_eq_false hd, Bool.false_and, Bool.false_and]

/-- GETBUF of the buffer that SETBUF drives reads the low S bits of the value back. -/
theorem testBit_getbufLsb_of_setbufLsb {s s' : State} (boff : BitVec 16) (hc : s'.cfg = s.cfg)
    (hb : s'.inp.bufIn = (drives (.setbufLsb boff) s).bufOut) (d : Nat) :
    (drives (.getbufLsb boff) s').valueOut.testBit d = (decide (d < s.cfg.S) && s.inp.valueIn.testBit d) := by
  rw [testBit_drives_getbufLsb, hc, hb]
  by_cases hd : d < s.cfg.S
  · rw [streamBit_drives_setbufLsb, if_pos (by omega), Nat.add_sub_cancel_left]
  · rw [decide_eq_false hd, Bool.false_and, Bool.false_and]

/-- Settles O16: it holds. What is read back is the value's low S bits, and the value has no others. -/
theorem lsbRoundTrip : Obligations.LsbRoundTrip := by
  intro s hv
  refine ⟨fun h => ⟨_, exec_of_completes (i := .setbLsb) h, fun j hj hout => ?_, fun s' hc hb => ?_⟩,
    fun boff hset h => ⟨_, exec_of_completes (i := .setbufLsb boff) ⟨hset, h⟩, fun i hout => ?_, fun s' hc hb => ?_⟩⟩
  · rw [getLsbD_drives_setbLsb s hj, if_neg hout]
  · have h' : s'.cfg.P + s'.cfg.S ≤ 8 := hc ▸ h
    exact ⟨_, exec_of_completes (i := .getbLsb) h', eq_of_testBit_low hv (testBit_getbLsb_of_setbLsb h hc hb)⟩
  · rw [streamBit_drives_setbufLsb, if_neg hout]
  · have h' : s'.cfg.P + 8 * boff.toNat + s'.cfg.S ≤ 8 * s'.cfg.N := hc ▸ h
    exact ⟨_, exec_of_completes (i := .getbufLsb boff) h',
      eq_of_testBit_low hv (testBit_getbufLsb_of_setbufLsb boff hc hb)⟩

/-- SETB of the value that GETB drives, onto the same byte, drives that byte. -/
theorem setbLsb_of_getbLsb {s s' : State} (hc : s'.cfg = s.cfg) (hb : s'.inp.byteIn = s.inp.byteIn)
    (hv : s'.inp.valueIn = (drives .getbLsb s).valueOut) : (drives .setbLsb s').byteOut = s.inp.byteIn := by
  apply BitVec.eq_of_getLsbD_eq
  intro j hj
  rw [getLsbD_drives_setbLsb s' hj, hc, hb, hv, testBit_drives_getbLsb]
  split_ifs with hin
  · rw [decide_eq_true (show j - s.cfg.P < s.cfg.S by omega), Bool.true_and, Nat.add_sub_cancel' hin.1]
  · rfl

/-- SETBUF of the value that GETBUF drives, onto the same buffer, drives the same stream bits. -/
theorem streamBit_setbufLsb_of_getbufLsb {s s' : State} {boff : BitVec 16} (hc : s'.cfg = s.cfg)
    (hb : s'.inp.bufIn = s.inp.bufIn) (hv : s'.inp.valueIn = (drives (.getbufLsb boff) s).valueOut) (i : Nat) :
    streamBit (drives (.setbufLsb boff) s').bufOut i = streamBit s.inp.bufIn i := by
  rw [streamBit_drives_setbufLsb, hc, hb, hv, testBit_drives_getbufLsb]
  split_ifs with hin
  · rw [decide_eq_true (by omega), Bool.true_and, Nat.add_sub_cancel' hin.1]
  · rfl

/-- Settles O18: it holds. Each bit of the span is written back from where it was read. -/
theorem lsbReverseRoundTrip : Obligations.LsbReverseRoundTrip := by
  intro s
  refine ⟨fun h => ⟨_, exec_of_completes (i := .getbLsb) h, fun s' hc hb hv => ?_⟩,
    fun boff hset h => ⟨_, exec_of_completes (i := .getbufLsb boff) h, fun s' hc hb hv => ?_⟩⟩
  · have h' : s'.cfg.P + s'.cfg.S ≤ 8 := hc ▸ h
    exact ⟨_, exec_of_completes (i := .setbLsb) h', setbLsb_of_getbLsb hc hb hv⟩
  · have h' : s'.cfg.hasSetbuf = true ∧ s'.cfg.P + 8 * boff.toNat + s'.cfg.S ≤ 8 * s'.cfg.N := hc ▸ ⟨hset, h⟩
    exact ⟨_, exec_of_completes (i := .setbufLsb boff) h',
      fun k => byteAt_eq_of_streamBit k fun j _ => streamBit_setbufLsb_of_getbufLsb hc hb hv (8 * k + j)⟩

end Sys2Proof.Machine

/-! PROOFS. The bitfield_reverser (42_reverser_msb.md R151 to R154): its four commands bit by bit. -/

namespace Sys2Proof.Machine

open Sys2Proof

theorem drives_getbMsb_valueOut (s : State) :
    (drives .getbMsb s).valueOut = gather (fun d => s.inp.byteIn.getLsbD (s.cfg.P + s.cfg.S - 1 - d)) s.cfg.S :=
  truncTo_of_lt_field (gather_lt _ _)

theorem testBit_drives_getbMsb (s : State) (d : Nat) :
    (drives .getbMsb s).valueOut.testBit d =
      (decide (d < s.cfg.S) && s.inp.byteIn.getLsbD (s.cfg.P + s.cfg.S - 1 - d)) := by
  rw [drives_getbMsb_valueOut, testBit_gather]

theorem drives_getbufMsb_valueOut (s : State) (boff : BitVec 16) :
    (drives (.getbufMsb boff) s).valueOut =
      gather (fun d => streamBit s.inp.bufIn (fieldEnd s.cfg boff - d - 1)) s.cfg.S :=
  truncTo_of_lt_field (gather_lt _ _)

theorem testBit_drives_getbufMsb (s : State) (boff : BitVec 16) (d : Nat) :
    (drives (.getbufMsb boff) s).valueOut.testBit d =
      (decide (d < s.cfg.S) && streamBit s.inp.bufIn (s.cfg.P + 8 * boff.toNat + s.cfg.S - d - 1)) := by
  rw [drives_getbufMsb_valueOut, testBit_gather, fieldEnd]

/-- Every bit of the span `[base, base + n)` is `d` places below its top for one `d < n` (R150). -/
theorem exists_eq_below_top {base n i : Nat} (h : base ≤ i ∧ i < base + n) : ∃ d < n, i = base + n - 1 - d :=
  ⟨base + n - 1 - i, by omega, by omega⟩

/-- Value bits copied to byte bits from the span's top down (R152): the span has them reversed, the rest stays. -/
theorem getLsbD_scatterByte_reversed (b : Byte) (base v n : Nat) (h : base + n ≤ 8) {j : Nat} (hj : j < 8) :
    (scatterByte (fun d => base + n - 1 - d) v n b).getLsbD j =
      if base ≤ j ∧ j < base + n then v.testBit (base + n - 1 - j) else b.getLsbD j := by
  by_cases hin : base ≤ j ∧ j < base + n
  · obtain ⟨d, hd, rfl⟩ := exists_eq_below_top hin
    rw [if_pos hin, show base + n - 1 - (base + n - 1 - d) = d by omega]
    exact scatterByte_placed (fun d => base + n - 1 - d) v n b (fun d hd => by omega)
      (fun d hd e he heq => by omega) d hd
  · rw [if_neg hin]
    exact scatterByte_of_not_placed _ v n b j hj (fun d hd => by omega) (fun d hd => by omega)

/-- Value bits copied to stream bits from the span's top down (R154): the span has them reversed, the rest stays. -/
theorem streamBit_scatterBuf_reversed (m : Memory) (base v n i : Nat) :
    streamBit (scatterBuf (fun d => base + n - d - 1) v n m) i =
      if base ≤ i ∧ i < base + n then v.testBit (base + n - 1 - i) else streamBit m i := by
  simp only [Nat.sub_right_comm _ _ 1]
  by_cases hin : base ≤ i ∧ i < base + n
  · obtain ⟨d, hd, rfl⟩ := exists_eq_below_top hin
    rw [if_pos hin, show base + n - 1 - (base + n - 1 - d) = d by omega]
    exact streamBit_scatterBuf_placed (fun d => base + n - 1 - d) v n m
      (fun d hd e he heq => by omega) d hd
  · rw [if_neg hin]
    exact streamBit_scatterBuf_of_not_placed _ v n m i (fun d hd => by omega)

theorem getLsbD_drives_setbMsb {s : State} (h : s.cfg.P + s.cfg.S ≤ 8) {j : Nat} (hj : j < 8) :
    (drives .setbMsb s).byteOut.getLsbD j =
      if s.cfg.P ≤ j ∧ j < s.cfg.P + s.cfg.S then s.inp.valueIn.testBit (s.cfg.P + s.cfg.S - 1 - j)
      else s.inp.byteIn.getLsbD j :=
  getLsbD_scatterByte_reversed s.inp.byteIn s.cfg.P s.inp.valueIn s.cfg.S h hj

theorem streamBit_drives_setbufMsb (s : State) (boff : BitVec 16) (i : Nat) :
    streamBit (drives (.setbufMsb boff) s).bufOut i =
      if s.cfg.P + 8 * boff.toNat ≤ i ∧ i < s.cfg.P + 8 * boff.toNat + s.cfg.S
      then s.inp.valueIn.testBit (s.cfg.P + 8 * boff.toNat + s.cfg.S - 1 - i) else streamBit s.inp.bufIn i :=
  streamBit_scatterBuf_reversed s.inp.bufIn (s.cfg.P + 8 * boff.toNat) s.inp.valueIn s.cfg.S i

/-- Settles O5: it holds, bit by bit of the gathered value. -/
theorem getbMsbReversesTheSpan : Obligations.GetbMsbReversesTheSpan := by
  intro s
  exact ⟨fun h => ⟨(drives .getbMsb s).valueOut, exec_of_completes (i := .getbMsb) h, testBit_drives_getbMsb s⟩,
    withByteForm_range (drives .getbMsb s), rfl⟩

/-- Settles O6: it holds. The fold of BitCopy is the model's `scatterByte`, and its two consequences are read off the
bits of the byte it gives. -/
theorem setbMsbWritesTheSpanReversed : Obligations.SetbMsbWritesTheSpanReversed := by
  intro s
  refine ⟨fun h => ⟨(drives .setbMsb s).byteOut, exec_of_completes (i := .setbMsb) h, scatterByte_eq_foldl _ _ _ _,
    fun p hp => ?_, fun j hj hout => ?_⟩, withByteForm_range (drives .setbMsb s), rfl⟩
  · rw [getLsbD_drives_setbMsb h (by omega), if_pos (by omega),
      show s.cfg.P + s.cfg.S - 1 - (s.cfg.P + s.cfg.S - 1 - p) = p by omega]
  · rw [getLsbD_drives_setbMsb h hj, if_neg hout]

/-- Settles O7: it holds, bit by bit of the gathered value. -/
theorem getbufMsbReversesTheSpan : Obligations.GetbufMsbReversesTheSpan := by
  intro s boff
  exact ⟨fun h => ⟨(drives (.getbufMsb boff) s).valueOut, exec_of_completes (i := .getbufMsb boff) h,
      testBit_drives_getbufMsb s boff⟩,
    withBufField_range (drives (.getbufMsb boff) s), encodeFields_boff 3#3 boff⟩

/-- Settles O8: it holds. SETBUF's presence is checked before its range (R184). -/
theorem setbufMsbWritesTheSpanReversed : Obligations.SetbufMsbWritesTheSpanReversed := by
  intro s boff
  refine ⟨fun hset h => ?_, fun hset h => ?_, withSetbuf_absent (drives (.setbufMsb boff) s),
    encodeFields_boff 4#3 boff⟩
  · exact ⟨(drives (.setbufMsb boff) s).bufOut, exec_of_completes (i := .setbufMsb boff) ⟨hset, h⟩,
      streamBit_drives_setbufMsb s boff⟩
  · exact (withSetbuf_present (drives (.setbufMsb boff) s) hset).trans (withBufField_range _ h)

/-- Settles O22: it holds. With no bits below or above the field, GETB.LSB's mask keeps the whole byte, and GETB.MSB's
value bit `d` is the byte's bit `7 - d`. -/
theorem wholeByteOrdersReverse : Obligations.WholeByteOrdersReverse := by
  intro s hP hS
  have h : s.cfg.P + s.cfg.S ≤ 8 := by omega
  refine ⟨⟨_, exec_of_completes (i := .getbLsb) h, ?_⟩, ⟨_, exec_of_completes (i := .getbMsb) h, ?_⟩⟩
  · rw [drives_getbLsb_valueOut, hP, hS, Nat.shiftRight_zero, mask, Nat.and_two_pow_sub_one_eq_mod]
    exact Nat.mod_eq_of_lt s.inp.byteIn.isLt
  · apply Nat.eq_of_testBit_eq
    intro d
    rw [testBit_drives_getbMsb, hP, hS, BitVec.testBit_toNat, BitVec.getLsbD_reverse, BitVec.getMsbD, Nat.zero_add]

end Sys2Proof.Machine

/-! PROOFS. `Rev_S` and the mirror law (42_reverser_msb.md R155, R156): what an MSB command answers is what the LSB
command answers, with the value reversed. -/

namespace Sys2Proof.Machine

open Sys2Proof

theorem gather_congr {f g : Nat → Bool} {n : Nat} (h : ∀ d < n, f d = g d) : gather f n = gather g n := by
  induction n with
  | zero => rfl
  | succ n ih => rw [gather, gather, ih fun d hd => h d (Nat.lt_succ_of_lt hd), h n n.lt_succ_self]

/-- R155's sum lists the powers of two from the top down, `gather` from the bottom up. -/
theorem revBits_eq_gather (n v : Nat) : revBits n v = gather (fun d => v.testBit (n - 1 - d)) n := by
  induction n generalizing v with
  | zero => rfl
  | succ n ih =>
    have hfirst : revBits (n + 1) v = (if v.testBit 0 then 2 ^ n else 0) + revBits n (v / 2) := by
      simp only [revBits, List.range_succ_eq_map, List.map_cons, List.map_map, List.sum_cons, Function.comp_def,
        Nat.testBit_succ, Nat.add_sub_cancel, Nat.sub_zero, Nat.succ_eq_add_one, Nat.sub_sub, Nat.add_comm 1]
    have hrest : gather (fun d => (v / 2).testBit (n - 1 - d)) n = gather (fun d => v.testBit (n - d)) n :=
      gather_congr fun d hd => by rw [show n - d = n - 1 - d + 1 by omega, Nat.testBit_succ]
    rw [hfirst, ih, hrest, Nat.add_comm, gather, Nat.add_sub_cancel, Nat.sub_self]

theorem testBit_revBits (n v d : Nat) : (revBits n v).testBit d = (decide (d < n) && v.testBit (n - 1 - d)) := by
  rw [revBits_eq_gather, testBit_gather]

theorem revBits_lt (n v : Nat) : revBits n v < 2 ^ n := by
  rw [revBits_eq_gather]
  exact gather_lt _ n

theorem testBit_revBits_and_mask (n v d : Nat) :
    (revBits n (v &&& mask n)).testBit d = (decide (d < n) && v.testBit (n - 1 - d)) := by
  rw [testBit_revBits, Nat.testBit_and, testBit_mask]
  by_cases hd : d < n
  · rw [decide_eq_true (show n - 1 - d < n by omega), Bool.and_true]
  · rw [decide_eq_false hd, Bool.false_and, Bool.false_and]

/-- Reversing twice within `n` bits gives a value of `n` bits back. -/
theorem revBits_revBits {n v : Nat} (hv : v < 2 ^ n) : revBits n (revBits n v) = v := by
  apply eq_of_testBit_low hv
  intro d
  rw [testBit_revBits, testBit_revBits]
  by_cases hd : d < n
  · rw [decide_eq_true (show n - 1 - d < n by omega), Bool.true_and, show n - 1 - (n - 1 - d) = d by omega]
  · rw [decide_eq_false hd, Bool.false_and, Bool.false_and]

theorem and_mask_of_lt {n v : Nat} (hv : v < 2 ^ n) : v &&& mask n = v := by
  rw [mask, Nat.and_two_pow_sub_one_eq_mod, Nat.mod_eq_of_lt hv]

/-- Two commands' results, each from its own state: both complete, driving `out` and `out'`, or both raise the same
error. -/
def AnswerAlike (s s' : State) (out out' : Outputs) (r r' : Result) : Prop :=
  (r = .next { s with out := out } ∧ r' = .next { s' with out := out' }) ∨ ∃ e, r = raise e s ∧ r' = raise e s'

theorem AnswerAlike.symm {s s' : State} {out out' : Outputs} {r r' : Result} (h : AnswerAlike s s' out out' r r') :
    AnswerAlike s' s out' out r' r :=
  h.imp And.symm fun ⟨e, hr, hr'⟩ => ⟨e, hr', hr⟩

theorem AnswerAlike.next {s s' t : State} {out out' : Outputs} {r r' : Result} (h : AnswerAlike s s' out out' r r')
    (hr : r = .next t) : t = { s with out := out } ∧ r' = .next { s' with out := out' } := by
  rcases h with ⟨hn, hn'⟩ | ⟨e, he, -⟩
  · exact ⟨by cases hr.symm.trans hn; rfl, hn'⟩
  · exact absurd (he.symm.trans hr) (raise_ne_next e s t)

/-- On the same inputs the same error is the same fault, as a fault carries what R185 makes of the inputs. -/
theorem AnswerAlike.fault {s s' : State} {out out' : Outputs} {r r' : Result} (h : AnswerAlike s s' out out' r r')
    (hi : s'.inp = s.inp) {f : Fault} (hr : r = .fault f) : r' = .fault f := by
  rcases h with ⟨hn, -⟩ | ⟨e, he, he'⟩
  · cases hr.symm.trans hn
  · rw [he', raise_congr e hi, ← he, hr]

theorem AnswerAlike.fault_iff {s s' : State} {out out' : Outputs} {r r' : Result} (h : AnswerAlike s s' out out' r r')
    (hi : s'.inp = s.inp) (f : Fault) : r = .fault f ↔ r' = .fault f :=
  ⟨h.fault hi, h.symm.fault hi.symm⟩

section DifferInOrder

/-! `s` and `s'` address instances that differ in ORDER at most. -/

variable {s s' : State} {o : Order} (hp : s'.cfg.toParams = { s.cfg.toParams with order := o })
include hp

theorem position_size_eq : s'.cfg.P = s.cfg.P ∧ s'.cfg.S = s.cfg.S := by
  rw [hp]
  exact ⟨rfl, rfl⟩

theorem withByteForm_alike (out out' : Outputs) :
    AnswerAlike s s' out out' (withByteForm s out) (withByteForm s' out') := by
  rcases withByteForm_cases s out with ⟨hc, h⟩ | ⟨hc, h⟩
  · exact .inl ⟨h, withByteForm_ok out' (by rwa [hp])⟩
  · exact .inr ⟨.range, h, withByteForm_range out' (by rwa [hp])⟩

theorem withBufField_alike (boff : BitVec 16) (out out' : Outputs) :
    AnswerAlike s s' out out' (withBufField s boff out) (withBufField s' boff out') := by
  rcases withBufField_cases s boff out with ⟨hc, h⟩ | ⟨hc, h⟩
  · exact .inl ⟨h, withBufField_ok out' (by rwa [hp])⟩
  · exact .inr ⟨.range, h, withBufField_range out' (by rwa [hp])⟩

theorem withSetbuf_alike (boff : BitVec 16) (out out' : Outputs) :
    AnswerAlike s s' out out' (withSetbuf s boff out) (withSetbuf s' boff out') := by
  have hset : s'.cfg.hasSetbuf = s.cfg.hasSetbuf := by rw [hp]
  cases hs : s.cfg.hasSetbuf with
  | true =>
    rw [withSetbuf_present out hs, withSetbuf_present out' (hset.trans hs)]
    exact withBufField_alike hp boff out out'
  | false => exact .inr ⟨.illegalOp, withSetbuf_absent out hs, withSetbuf_absent out' (hset.trans hs)⟩

/-- ORDER has no part in the checks, and a command and its mirror make the same ones (R155). -/
theorem exec_mirrorOf_alike (i : Instr) :
    AnswerAlike s s' (drives i s) (drives (mirrorOf i) s') (exec i s) (exec (mirrorOf i) s') := by
  cases i with
  | getbLsb => exact withByteForm_alike hp (drives .getbLsb s) (drives .getbMsb s')
  | setbLsb => exact withByteForm_alike hp (drives .setbLsb s) (drives .setbMsb s')
  | getbufLsb boff => exact withBufField_alike hp boff (drives (.getbufLsb boff) s) (drives (.getbufMsb boff) s')
  | setbufLsb boff => exact withSetbuf_alike hp boff (drives (.setbufLsb boff) s) (drives (.setbufMsb boff) s')
  | getbMsb => exact withByteForm_alike hp (drives .getbMsb s) (drives .getbLsb s')
  | setbMsb => exact withByteForm_alike hp (drives .setbMsb s) (drives .setbLsb s')
  | getbufMsb boff => exact withBufField_alike hp boff (drives (.getbufMsb boff) s) (drives (.getbufLsb boff) s')
  | setbufMsb boff => exact withSetbuf_alike hp boff (drives (.setbufMsb boff) s) (drives (.setbufLsb boff) s')
  | bitcopy _ _ => exact .inl ⟨rfl, rfl⟩

/-- GETB.MSB reads the reverse of what GETB.LSB reads (R155). -/
theorem exec_getbMsb_of_getbLsb (hb : s'.inp.byteIn = s.inp.byteIn) {t : State} (h : exec .getbLsb s = .next t) :
    ∃ t', exec .getbMsb s' = .next t' ∧ t'.out.valueOut = revBits s.cfg.S t.out.valueOut := by
  obtain ⟨hP, hS⟩ := position_size_eq hp
  obtain ⟨rfl, h'⟩ := (exec_mirrorOf_alike hp .getbLsb).next h
  refine ⟨_, h', Nat.eq_of_testBit_eq fun d => ?_⟩
  rw [mirrorOf, testBit_drives_getbMsb, testBit_revBits, testBit_drives_getbLsb, hP, hS, hb]
  by_cases hd : d < s.cfg.S
  · rw [decide_eq_true (show s.cfg.S - 1 - d < s.cfg.S by omega), Bool.true_and,
      show s.cfg.P + s.cfg.S - 1 - d = s.cfg.P + (s.cfg.S - 1 - d) by omega]
  · rw [decide_eq_false hd, Bool.false_and, Bool.false_and]

/-- GETBUF.MSB reads the reverse of what GETBUF.LSB reads (R155). -/
theorem exec_getbufMsb_of_getbufLsb {boff : BitVec 16} (hb : ∀ i, streamBit s'.inp.bufIn i = streamBit s.inp.bufIn i)
    {t : State} (h : exec (.getbufLsb boff) s = .next t) :
    ∃ t', exec (.getbufMsb boff) s' = .next t' ∧ t'.out.valueOut = revBits s.cfg.S t.out.valueOut := by
  obtain ⟨hP, hS⟩ := position_size_eq hp
  obtain ⟨rfl, h'⟩ := (exec_mirrorOf_alike hp (.getbufLsb boff)).next h
  refine ⟨_, h', Nat.eq_of_testBit_eq fun d => ?_⟩
  rw [mirrorOf, testBit_drives_getbufMsb, testBit_revBits, testBit_drives_getbufLsb, hP, hS, hb]
  by_cases hd : d < s.cfg.S
  · rw [decide_eq_true (show s.cfg.S - 1 - d < s.cfg.S by omega), Bool.true_and,
      show s.cfg.P + 8 * boff.toNat + s.cfg.S - d - 1 = s.cfg.P + 8 * boff.toNat + (s.cfg.S - 1 - d) by omega]
  · rw [decide_eq_false hd, Bool.false_and, Bool.false_and]

/-- SETB.MSB of a value drives the byte that SETB.LSB of the reversed value drives (R155). -/
theorem exec_setbMsb_of_setbLsb (hb : s'.inp.byteIn = s.inp.byteIn)
    (hv : s.inp.valueIn = revBits s.cfg.S (s'.inp.valueIn &&& mask s.cfg.S)) {t : State}
    (h : exec .setbLsb s = .next t) : ∃ t', exec .setbMsb s' = .next t' ∧ t'.out.byteOut = t.out.byteOut := by
  obtain ⟨hP, hS⟩ := position_size_eq hp
  have hc : s'.cfg.P + s'.cfg.S ≤ 8 := by
    rw [hP, hS]
    exact (exec_next h).1
  obtain ⟨rfl, h'⟩ := (exec_mirrorOf_alike hp .setbLsb).next h
  refine ⟨_, h', BitVec.eq_of_getLsbD_eq fun j hj => ?_⟩
  rw [mirrorOf, getLsbD_drives_setbMsb hc hj, getLsbD_drives_setbLsb s hj, hv, testBit_revBits_and_mask, hP, hS, hb]
  split_ifs with hin
  · rw [decide_eq_true (show j - s.cfg.P < s.cfg.S by omega), Bool.true_and,
      show s.cfg.P + s.cfg.S - 1 - j = s.cfg.S - 1 - (j - s.cfg.P) by omega]
  · rfl

/-- SETBUF.MSB of a value drives the stream bits that SETBUF.LSB of the reversed value drives (R155). -/
theorem exec_setbufMsb_of_setbufLsb {boff : BitVec 16} (hb : s'.inp.bufIn = s.inp.bufIn)
    (hv : s.inp.valueIn = revBits s.cfg.S (s'.inp.valueIn &&& mask s.cfg.S)) {t : State}
    (h : exec (.setbufLsb boff) s = .next t) :
    ∃ t', exec (.setbufMsb boff) s' = .next t' ∧ ∀ i, streamBit t'.out.bufOut i = streamBit t.out.bufOut i := by
  obtain ⟨hP, hS⟩ := position_size_eq hp
  obtain ⟨rfl, h'⟩ := (exec_mirrorOf_alike hp (.setbufLsb boff)).next h
  refine ⟨_, h', fun i => ?_⟩
  rw [mirrorOf, streamBit_drives_setbufMsb, streamBit_drives_setbufLsb, hv, testBit_revBits_and_mask, hP, hS, hb]
  split_ifs with hin
  · rw [decide_eq_true (show i - (s.cfg.P + 8 * boff.toNat) < s.cfg.S by omega), Bool.true_and,
      show s.cfg.P + 8 * boff.toNat + s.cfg.S - 1 - i = s.cfg.S - 1 - (i - (s.cfg.P + 8 * boff.toNat)) by omega]
  · rfl

end DifferInOrder

/-- Settles O20: it holds, command by command. -/
theorem mirrorLaw : Obligations.MirrorLaw := by
  intro s s' r boff _ hp hi hrc hri
  have hbyte : s'.inp.byteIn = s.inp.byteIn := by rw [hi]
  have hbuf : s'.inp.bufIn = s.inp.bufIn := by rw [hi]
  have hpr : s'.cfg.toParams = { r.cfg.toParams with order := .msb } := by rw [hrc, hp]
  have hrbyte : s'.inp.byteIn = r.inp.byteIn := by rw [hi, hri]
  have hrbuf : s'.inp.bufIn = r.inp.bufIn := by rw [hi, hri]
  have hrv : r.inp.valueIn = revBits r.cfg.S (s'.inp.valueIn &&& mask r.cfg.S) := by rw [hri, hrc, hi, mask]
  refine ⟨fun t h => exec_getbMsb_of_getbLsb hp hbyte h,
    fun t h => exec_getbufMsb_of_getbufLsb hp (fun i => by rw [hbuf]) h,
    fun t h => exec_setbMsb_of_setbLsb hpr hrbyte hrv h, fun t h => ?_,
    (exec_mirrorOf_alike hp .getbLsb).fault_iff hi, (exec_mirrorOf_alike hp (.getbufLsb boff)).fault_iff hi,
    (exec_mirrorOf_alike hp .setbLsb).fault_iff hi, (exec_mirrorOf_alike hp (.setbufLsb boff)).fault_iff hi⟩
  obtain ⟨t', h', hstream⟩ := exec_setbufMsb_of_setbufLsb hpr hrbuf hrv h
  exact ⟨t', h', fun k => byteAt_eq_of_streamBit k fun j _ => hstream (8 * k + j)⟩

/-- What a command drives does not depend on ORDER: the command itself says its order (log 10). -/
theorem drives_congr_order {s s' : State} {o : Order} (hp : s'.cfg.toParams = { s.cfg.toParams with order := o })
    (hi : s'.inp = s.inp) (i : Instr) : drives i s' = drives i s := by
  cases i <;> simp only [drives, valueOutputs, byteOutputs, bufOutputs, fieldBase, fieldEnd, hp, hi]

/-- A field of one bit has the same bit at its bottom and at its top. -/
theorem drives_mirrorOf_of_width_one {i : Instr} {s : State} (hS : s.cfg.S = 1) (hi : i.order? = some .lsb)
    (hc : completes i s.cfg) : drives (mirrorOf i) s = drives i s := by
  have hplace : ∀ boff, fieldEnd s.cfg boff - 0 - 1 = fieldBase s.cfg boff + 0 := fun boff => by
    rw [fieldEnd, fieldBase, hS]
    rfl
  cases i with
  | getbLsb =>
    have hv : (drives .getbMsb s).valueOut = (drives .getbLsb s).valueOut := by
      apply Nat.eq_of_testBit_eq
      intro d
      rw [testBit_drives_getbMsb, testBit_drives_getbLsb, hS]
      cases d with
      | zero => rfl
      | succ d => rw [decide_eq_false (by omega), Bool.false_and, Bool.false_and]
    exact congrArg (fun v => { defaultOutputs s.inp with valueOut := v }) hv
  | setbLsb =>
    have hb : (drives .setbMsb s).byteOut = (drives .setbLsb s).byteOut := by
      rw [drives_setbLsb_byteOut_eq_scatterByte hc, drives, byteOutputs_byteOut, hS]
      rfl
    exact congrArg (byteOutputs s) hb
  | getbufLsb boff =>
    rw [mirrorOf, drives, drives, hS, gather, gather, hplace boff]
    rfl
  | setbufLsb boff =>
    rw [mirrorOf, drives, drives, hS, scatterBuf, scatterBuf, hplace boff]
    rfl
  | getbMsb | setbMsb | getbufMsb _ | setbufMsb _ | bitcopy _ _ => cases hi

/-- Settles O21: it holds. The checks are those of the mirror law, and what is driven is the same. -/
theorem widthOneOrdersAgree : Obligations.WidthOneOrdersAgree := by
  intro s s' i _ hp hi hS hlsb
  have halike := exec_mirrorOf_alike hp i
  have hout : completes i s.cfg → drives (mirrorOf i) s' = drives i s := fun hc =>
    (drives_congr_order hp hi (mirrorOf i)).trans (drives_mirrorOf_of_width_one hS hlsb hc)
  refine ⟨fun t h => ?_, fun t' h' => ?_, halike.fault_iff hi⟩
  · obtain ⟨rfl, h'⟩ := halike.next h
    exact ⟨_, h', hout (exec_next h).1⟩
  · obtain ⟨rfl, h⟩ := halike.symm.next h'
    exact ⟨_, h, (hout (exec_next h).1).symm⟩

end Sys2Proof.Machine

/-! PROOFS. The laws of R158: each is the LSB law, carried over by the mirror law from a state to itself. -/

namespace Sys2Proof.Machine

open Sys2Proof

/-- The state with the value reversed within the field's bits on `value_in` (R155). -/
def reverseValue (s : State) : State :=
  { s with inp := { s.inp with valueIn := revBits s.cfg.S (s.inp.valueIn &&& mask s.cfg.S) } }

theorem reverseValue_valueIn {s : State} (hv : s.inp.valueIn < 2 ^ s.cfg.S) :
    (reverseValue s).inp.valueIn = revBits s.cfg.S s.inp.valueIn := by
  rw [reverseValue, and_mask_of_lt hv]

theorem exec_setbMsb_of_reverseValue {s t : State} (h : exec .setbLsb (reverseValue s) = .next t) :
    ∃ t', exec .setbMsb s = .next t' ∧ t'.out.byteOut = t.out.byteOut :=
  exec_setbMsb_of_setbLsb (s := reverseValue s) (s' := s) rfl rfl rfl h

theorem exec_setbufMsb_of_reverseValue {s t : State} {boff : BitVec 16}
    (h : exec (.setbufLsb boff) (reverseValue s) = .next t) :
    ∃ t', exec (.setbufMsb boff) s = .next t' ∧ ∀ i, streamBit t'.out.bufOut i = streamBit t.out.bufOut i :=
  exec_setbufMsb_of_setbufLsb (s := reverseValue s) (s' := s) rfl rfl rfl h

/-- A decoded value has no bits above its field. -/
theorem valueOut_lt_field {i : Instr} {boff : BitVec 16} {s t : State}
    (hi : i = .getbLsb ∨ i = .getbMsb ∨ i = .getbufLsb boff ∨ i = .getbufMsb boff) (h : exec i s = .next t) :
    t.out.valueOut < 2 ^ s.cfg.S := by
  obtain ⟨-, rfl⟩ := exec_next h
  exact Nat.lt_pow_two_of_testBit _ fun d hd => testBit_drives_valueOut_of_ge s hi hd

/-- Settles O15: it holds. -/
theorem msbByteAndBufferFormsAgree : Obligations.MsbByteAndBufferFormsAgree := by
  intro s h hbyte
  constructor
  · obtain ⟨⟨t, u, ht, hu, heq⟩, -⟩ := lsbByteAndBufferFormsAgree s h hbyte
    obtain ⟨t', ht', hv⟩ := exec_getbMsb_of_getbLsb rfl rfl ht
    obtain ⟨u', hu', hw⟩ := exec_getbufMsb_of_getbufLsb rfl (fun _ => rfl) hu
    exact ⟨t', u', ht', hu', by rw [hv, hw, heq]⟩
  · intro hset
    obtain ⟨-, hwrite⟩ := lsbByteAndBufferFormsAgree (reverseValue s) h hbyte
    obtain ⟨t, u, ht, hu, heq⟩ := hwrite hset
    obtain ⟨t', ht', hb⟩ := exec_setbMsb_of_reverseValue ht
    obtain ⟨u', hu', hstream⟩ := exec_setbufMsb_of_reverseValue hu
    exact ⟨t', u', ht', hu', by rw [hb, ← heq, byteAt_eq_of_streamBit 0 fun j _ => hstream (8 * 0 + j)]⟩

/-- Settles O17: it holds. Written reversed and read reversed, the value comes back as it was. -/
theorem msbRoundTrip : Obligations.MsbRoundTrip := by
  intro s hv
  have hrev : (reverseValue s).inp.valueIn < 2 ^ s.cfg.S := revBits_lt _ _
  have hback : revBits s.cfg.S (reverseValue s).inp.valueIn = s.inp.valueIn := by
    rw [reverseValue_valueIn hv, revBits_revBits hv]
  obtain ⟨hbyte, hbuf⟩ := lsbRoundTrip (reverseValue s) hrev
  refine ⟨fun h => ?_, fun boff hset h => ?_⟩
  · obtain ⟨t, ht, hkept, hread⟩ := hbyte h
    obtain ⟨t', ht', hb⟩ := exec_setbMsb_of_reverseValue ht
    refine ⟨t', ht', fun j hj hout => hb ▸ hkept j hj hout, fun s' hc hin => ?_⟩
    obtain ⟨u, hu, hval⟩ := hread s' hc (hin.trans hb)
    obtain ⟨u', hu', hval'⟩ := exec_getbMsb_of_getbLsb rfl rfl hu
    exact ⟨u', hu', by rw [hval', hval, hc, hback]⟩
  · obtain ⟨t, ht, hkept, hread⟩ := hbuf boff hset h
    obtain ⟨t', ht', hstream⟩ := exec_setbufMsb_of_reverseValue ht
    refine ⟨t', ht', fun i hout => (hstream i).trans (hkept i hout), fun s' hc hin => ?_⟩
    obtain ⟨u, hu, hval⟩ := hread { s' with inp := { s'.inp with bufIn := t.out.bufOut } } hc rfl
    obtain ⟨u', hu', hval'⟩ := exec_getbufMsb_of_getbufLsb (s' := s') (by rfl) (fun i => by rw [hin, hstream]) hu
    exact ⟨u', hu', by rw [hval', hval, hc, hback]⟩

/-- Reversing what a read under MSB gave, as the write under MSB does, is what the read under LSB gave. -/
theorem reverseValue_of_read {s s' : State} {v : Nat} (hc : s'.cfg = s.cfg) (hv : v < 2 ^ s.cfg.S)
    (hin : s'.inp.valueIn = revBits s.cfg.S v) : (reverseValue s').inp.valueIn = v := by
  have hlt : s'.inp.valueIn < 2 ^ s'.cfg.S := by
    rw [hin, hc]
    exact revBits_lt _ _
  rw [reverseValue_valueIn hlt, hin, hc, revBits_revBits hv]

/-- Settles O19: it holds. -/
theorem msbReverseRoundTrip : Obligations.MsbReverseRoundTrip := by
  intro s
  obtain ⟨hbyte, hbuf⟩ := lsbReverseRoundTrip s
  refine ⟨fun h => ?_, fun boff hset h => ?_⟩
  · obtain ⟨t, ht, hwrite⟩ := hbyte h
    obtain ⟨t', ht', hval⟩ := exec_getbMsb_of_getbLsb rfl rfl ht
    refine ⟨t', ht', fun s' hc hb hv => ?_⟩
    have hlt : t.out.valueOut < 2 ^ s.cfg.S := valueOut_lt_field (boff := 0#16) (.inl rfl) ht
    obtain ⟨u, hu, hout⟩ := hwrite (reverseValue s') hc hb (reverseValue_of_read hc hlt (hv.trans hval))
    obtain ⟨u', hu', hout'⟩ := exec_setbMsb_of_reverseValue hu
    exact ⟨u', hu', hout'.trans hout⟩
  · obtain ⟨t, ht, hwrite⟩ := hbuf boff hset h
    obtain ⟨t', ht', hval⟩ := exec_getbufMsb_of_getbufLsb rfl (fun _ => rfl) ht
    refine ⟨t', ht', fun s' hc hb hv => ?_⟩
    have hlt : t.out.valueOut < 2 ^ s.cfg.S := valueOut_lt_field (.inr (.inr (.inl rfl))) ht
    obtain ⟨u, hu, hout⟩ := hwrite (reverseValue s') hc hb (reverseValue_of_read hc hlt (hv.trans hval))
    obtain ⟨u', hu', hstream⟩ := exec_setbufMsb_of_reverseValue hu
    exact ⟨u', hu', fun k => (byteAt_eq_of_streamBit k fun j _ => hstream (8 * k + j)).trans (hout k)⟩

end Sys2Proof.Machine

/-! PROOFS. The words that decoding rejects (30_encoding.md R76; 60_exceptions.md R181, R182, R184). -/

namespace Sys2Proof

/-- The opcodes that select no command are the three reserved ones (R73). -/
theorem commandOf_eq_none_iff {order : Order} {op didx sidx : BitVec 3} {boff : BitVec 16} :
    commandOf order op didx sidx boff = none ↔ op = 0#3 ∨ op = 6#3 ∨ op = 7#3 := by
  obtain ⟨k, hk⟩ := op
  change k < 8 at hk
  interval_cases k <;> cases order <;> simp [commandOf]

theorem opWithoutIndices_iff (op : BitVec 3) :
    opWithoutIndices op = true ↔ op = 1#3 ∨ op = 2#3 ∨ op = 3#3 ∨ op = 4#3 := by
  simp [opWithoutIndices, or_assoc]

theorem opWithoutOffset_iff (op : BitVec 3) : opWithoutOffset op = true ↔ op = 1#3 ∨ op = 2#3 ∨ op = 5#3 := by
  simp [opWithoutOffset, or_assoc]

/-- A word is one of R181's exactly if its opcode selects no command, or SETBUF where that is absent. -/
theorem illegalWord_iff {cfg : Config} {w : CmdWord} : IllegalWord cfg w ↔
    commandOf cfg.order (opOf w) (didxOf w) (sidxOf w) (boffOf w) = none ∨ (opOf w = 4#3 ∧ cfg.hasSetbuf = false) := by
  rw [commandOf_eq_none_iff, or_assoc, or_assoc]
  rfl

/-- A word is one of R182's exactly if a field that has to be zero is not. -/
theorem reservedWord_iff {w : CmdWord} : ReservedWord w ↔
    (rsv0Of w ≠ 0#5 ∨ rsv1Of w ≠ 0#1 ∨ rsv2Of w ≠ 0#1) ∨
      (opWithoutIndices (opOf w) = true ∧ (didxOf w ≠ 0#3 ∨ sidxOf w ≠ 0#3)) ∨
      (opWithoutOffset (opOf w) = true ∧ boffOf w ≠ 0#16) := by
  rw [opWithoutIndices_iff, opWithoutOffset_iff, or_assoc, or_assoc]
  rfl

theorem decode_of_illegalWord {cfg : Config} {w : CmdWord} (h : IllegalWord cfg w) :
    decode cfg w = .error .illegalOp := by
  rw [decode]
  split
  · rfl
  · rename_i i hcmd
    rcases illegalWord_iff.mp h with hnone | hset
    · cases hnone.symm.trans hcmd
    · exact if_pos hset

/-- Past ILLEGAL_OP's checks, the checks of the reserved and the unused fields are R182's conditions in turn. -/
theorem decode_of_not_illegalWord {cfg : Config} {w : CmdWord} (h : ¬ IllegalWord cfg w) :
    (ReservedWord w ∧ decode cfg w = .error .rsvdField) ∨ (¬ ReservedWord w ∧ ∃ i, decode cfg w = .ok i) := by
  rw [illegalWord_iff, not_or] at h
  obtain ⟨hcmd, hset⟩ := h
  obtain ⟨i, hi⟩ := Option.ne_none_iff_exists'.mp hcmd
  rw [reservedWord_iff, decode, hi]
  simp only [if_neg hset]
  split_ifs with hrsv hidx hoff
  · exact .inl ⟨.inl hrsv, rfl⟩
  · exact .inl ⟨.inr (.inl hidx), rfl⟩
  · exact .inl ⟨.inr (.inr hoff), rfl⟩
  · exact .inr ⟨not_or.mpr ⟨hrsv, not_or.mpr ⟨hidx, hoff⟩⟩, i, rfl⟩

theorem decode_of_reservedWord {cfg : Config} {w : CmdWord} (h : ¬ IllegalWord cfg w) (hr : ReservedWord w) :
    decode cfg w = .error .rsvdField := by
  rcases decode_of_not_illegalWord h with ⟨-, hd⟩ | ⟨hn, -⟩
  · exact hd
  · exact absurd hr hn

/-- Settles O27: it holds. R181's words, R182's other words and the rest divide all words, and `decode` has one answer
in each class. -/
theorem decodeRejectsExactly : Obligations.DecodeRejectsExactly := by
  intro cfg w
  by_cases hI : IllegalWord cfg w
  · simp [hI, decode_of_illegalWord hI]
  · rcases decode_of_not_illegalWord hI with ⟨hR, hd⟩ | ⟨hR, i, hd⟩ <;> simp [hI, hR, hd]

end Sys2Proof

/-! PROOFS. The errors of an issue (60_exceptions.md R180 to R190): when the block raises one, that the step is then this
fault, that nothing is written, and what a host that reads `err_code` finds. -/

namespace Sys2Proof.Machine

open Sys2Proof

/-- Everything the block can answer: an error it raises, or what the command decoded drives. -/
theorem runCommand_cases (s : State) :
    (∃ e, runCommand s = raise e s) ∨
      ∃ i, decode s.cfg s.inp.cmd = .ok i ∧ completes i s.cfg ∧ runCommand s = .next { s with out := drives i s } := by
  cases hd : decode s.cfg s.inp.cmd with
  | error e => exact .inl ⟨e, runCommand_of_decode_error hd⟩
  | ok i =>
    rw [runCommand_of_decode_ok hd]
    rcases exec_cases i s with ⟨hc, h⟩ | ⟨-, h | ⟨-, h⟩⟩
    · exact .inr ⟨i, rfl, hc, h⟩
    · exact .inl ⟨_, h⟩
    · exact .inl ⟨_, h⟩

theorem raise_of_runCommand_fault {s : State} {f : Fault} (h : runCommand s = .fault f) : ∃ e, raise e s = .fault f := by
  rcases runCommand_cases s with ⟨e, he⟩ | ⟨i, -, -, hn⟩
  · exact ⟨e, he.symm.trans h⟩
  · cases hn.symm.trans h

/-- The block's error depends on its configuration and its inputs alone. -/
theorem runCommand_fault_congr {s s' : State} {f : Fault} (hc : s'.cfg = s.cfg) (hi : s'.inp = s.inp)
    (h : runCommand s = .fault f) : runCommand s' = .fault f := by
  cases hd : decode s.cfg s.inp.cmd with
  | error e =>
    rw [runCommand_of_decode_error hd] at h
    rw [runCommand_of_decode_error (by rw [hc, hi, hd]), raise_congr e hi, h]
  | ok i =>
    rw [runCommand_of_decode_ok hd] at h
    rw [runCommand_of_decode_ok (by rw [hc, hi, hd]), exec_fault_congr hc hi h]

theorem issueSampled_of_runCommand_fault {s : State} {f : Fault} (h : runCommand s = .fault f) :
    issueSampled s = .fault f := by
  cases hd : decode s.cfg s.inp.cmd with
  | error e =>
    rw [runCommand_of_decode_error hd] at h
    simp [issueSampled, hd, h]
  | ok i => exact issueSampled_of_fault hd ((runCommand_of_decode_ok hd).symm.trans h)

/-- An error that the block raises on the inputs sampled is the fault of the step (R187). -/
theorem step_of_runCommand_fault {s : State} {rest : List HostAction} {f : Fault} (hI : IssuesNext s rest)
    (h : runCommand (sample s) = .fault f) : step s = .fault f := by
  rw [step_issue hI]
  exact issueSampled_of_runCommand_fault (runCommand_fault_congr (s := sample s) rfl rfl h)

/-- A command out of range raises RANGE, where SETBUF, which is checked first, is there (R183, R184). -/
theorem exec_of_outOfRange {i : Instr} {s : State} (hset : i.isSetbuf = true → s.cfg.hasSetbuf = true)
    (h : OutOfRange s.cfg i) : exec i s = raise .range s := by
  cases i with
  | getbLsb => exact withByteForm_range (drives .getbLsb s) h
  | setbLsb => exact withByteForm_range (drives .setbLsb s) h
  | getbMsb => exact withByteForm_range (drives .getbMsb s) h
  | setbMsb => exact withByteForm_range (drives .setbMsb s) h
  | getbufLsb boff => exact withBufField_range (drives (.getbufLsb boff) s) h
  | getbufMsb boff => exact withBufField_range (drives (.getbufMsb boff) s) h
  | setbufLsb boff => exact (withSetbuf_present (drives (.setbufLsb boff) s) (hset rfl)).trans (withBufField_range _ h)
  | setbufMsb boff => exact (withSetbuf_present (drives (.setbufMsb boff) s) (hset rfl)).trans (withBufField_range _ h)
  | bitcopy _ _ => exact h.elim

/-- A command decoded is one of the instance's, so SETBUF is there when it is out of range. -/
theorem runCommand_of_outOfRange {s : State} {i : Instr} (hd : decode s.cfg s.inp.cmd = .ok i)
    (h : OutOfRange s.cfg i) : runCommand s = raise .range s := by
  obtain ⟨⟨-, hset⟩, -⟩ := encodeOfDecode _ _ _ hd
  rw [runCommand_of_decode_ok hd, exec_of_outOfRange hset h]

/-- Settles O31: it holds, of what the block raises on the inputs sampled. -/
theorem errorsByPriority : Obligations.ErrorsByPriority := by
  intro s rest hI
  refine ⟨fun hw => ?_, fun hw hr => ?_, fun i hd hr => ?_⟩ <;> apply step_of_runCommand_fault hI
  · exact runCommand_of_decode_error (s := sample s) (decode_of_illegalWord hw)
  · exact runCommand_of_decode_error (s := sample s) (decode_of_reservedWord hw hr)
  · exact runCommand_of_outOfRange (s := sample s) hd hr

/-- An issue that races has met another agent's write-back, since itself it writes nothing back (R215). -/
theorem issueSampled_race {s : State} (h : issueSampled s = .fault .race) :
    ∃ b ∈ s.accesses, b.agent ≠ s.agent ∧ b.writesBack = true := by
  rcases runCommand_cases s with ⟨e, he⟩ | ⟨i, hd, hc, -⟩
  · obtain ⟨f, hf, ho⟩ := raise_eq e s
    cases h.symm.trans (issueSampled_of_runCommand_fault (he.trans hf))
    cases ho
  · rw [issueSampled_of_completes hd hc] at h
    rcases noteAll_cases (s := { s with out := drives i s, outOf := s.cfg })
      (fun a ha => (accessesOf_own s i a ha).1) with ⟨-, t, ht⟩ | ⟨⟨a, ha, b, hb, hab⟩, -⟩
    · cases ht.symm.trans h
    · obtain ⟨hown, hread⟩ := accessesOf_own s i a ha
      obtain ⟨hne, -, hwrites⟩ := (conflict_iff a b).mp hab
      exact ⟨b, hb, fun e => hne (hown.trans e.symm), hwrites.resolve_left (by simp [hread])⟩

/-- Settles O33: it holds. An issue's fault is an error the block raised or a race over what the command read. -/
theorem faultWritesNothing : Obligations.FaultWritesNothing := by
  intro s rest f hI h
  rw [step_issue hI] at h
  rcases issueSampled_fault h with rfl | hrun
  · exact .inl ⟨rfl, issueSampled_race (s := sample { s with pending := rest }) h⟩
  · obtain ⟨e, he⟩ := raise_of_runCommand_fault hrun
    cases e <;> cases he
    · exact .inr ⟨_, .inl ⟨rfl, rfl⟩⟩
    · exact .inr ⟨_, .inr (.inl ⟨rfl, rfl⟩)⟩
    · exact .inr ⟨_, .inr (.inr ⟨rfl, rfl⟩)⟩

/-- A host that goes on after an error has the fault's outputs to read, and its issue is done (R189, R190). -/
theorem stepReading_of_fault {s : State} {rest : List HostAction} {f : Fault} {out : Outputs}
    (hp : s.pending = .issue :: rest) (h : step s = .fault f) (ho : faultOuts f = some out) :
    stepReading s = .next { s with out := out, outOf := s.cfg, pending := rest } := by
  simp [stepReading, goOnReading, h, ho, hp]

/-- Settles O34: it holds. Each fault of R184 carries its outputs, and with these the host goes on. -/
theorem errorsLeaveNoState : Obligations.ErrorsLeaveNoState := by
  intro s rest hp
  obtain ⟨hillegal, hreserved, hrange⟩ := errorsByPriority s rest (.inr hp)
  refine ⟨fun hw => ?_, fun hw hr => ?_, fun i hd hr => ?_, fun t h => ?_⟩
  · exact stepReading_of_fault hp (hillegal hw) rfl
  · exact stepReading_of_fault hp (hreserved hw hr) rfl
  · exact stepReading_of_fault hp (hrange i hd hr) rfl
  · rw [stepReading, h, goOnReading]

/-- Where the block's error code is not 0 it raises an error, whose fault carries the block's outputs (R180). -/
theorem runCommand_of_errCode {s : State} (h : (respond s).errCode ≠ 0#2) :
    ∃ f, runCommand s = .fault f ∧ faultOuts f = some (respond s) := by
  rcases runCommand_cases s with ⟨e, he⟩ | ⟨i, hd, hc, -⟩
  · obtain ⟨f, hf, ho⟩ := raise_eq e s
    exact ⟨f, he.trans hf, by rw [ho, respond_of_raise he]⟩
  · rw [respond_of_completes hd hc] at h
    exact absurd (drives_errCode i s) h

theorem step_of_errCode {s : State} {rest : List HostAction} (hI : IssuesNext s rest)
    (h : (respond (sample s)).errCode ≠ 0#2) : ∃ f, step s = .fault f ∧ faultOuts f = some (respond (sample s)) := by
  obtain ⟨f, hf, ho⟩ := runCommand_of_errCode h
  exact ⟨f, step_of_runCommand_fault hI hf, ho⟩

theorem run_succ_next {k : Nat} {s t : State} (h : Sys2Proof.core.run (k + 1) s = .next t) :
    ∃ v, step s = .next v ∧ Sys2Proof.core.run k v = .next t := by
  simp only [Host.Core.run] at h
  split at h
  · rename_i v hv
    exact ⟨v, hv, h⟩
  · cases h
  · cases h

/-- A safe run goes on from every state it reaches before its last step. -/
theorem SafeRun.step_next {j k : Nat} {s u : State} (hs : SafeRun k s) (hjk : j < k)
    (hu : Sys2Proof.core.run j s = .next u) : ∃ v, step u = .next v := by
  induction j generalizing s k with
  | zero =>
    obtain ⟨k, rfl⟩ := Nat.exists_eq_add_one.mpr hjk
    obtain ⟨t, ht⟩ := hs
    obtain ⟨v, hv, -⟩ := run_succ_next ht
    cases hu
    exact ⟨v, hv⟩
  | succ j ih =>
    obtain ⟨k, rfl⟩ := Nat.exists_eq_add_one_of_ne_zero (Nat.ne_zero_of_lt hjk)
    obtain ⟨t, ht⟩ := hs
    obtain ⟨v, hv, hrun⟩ := run_succ_next ht
    obtain ⟨v', hv', hu'⟩ := run_succ_next hu
    cases hv.symm.trans hv'
    exact ih ⟨t, hrun⟩ (Nat.lt_of_succ_lt_succ hjk) hu'

/-- Settles O56: it holds. The step of an issue with an error faults, so no step that answers a next state has one. -/
theorem errorCodeIsAFault : Obligations.ErrorCodeIsAFault := by
  refine ⟨fun s rest hI => ⟨step_of_errCode hI, fun t h => ?_⟩, fun s u rest j k hs hjk hu hI => ?_⟩
  · obtain ⟨i, rs, -, -, rfl, -⟩ := step_issue_next hI h
    exact drives_errCode i (sample s)
  · by_contra he
    obtain ⟨f, hf, -⟩ := step_of_errCode hI he
    obtain ⟨v, hv⟩ := hs.step_next hjk hu
    cases hf.symm.trans hv

/-- What a host that goes on after an issue's error has: R185's outputs, of the inputs sampled. A race has no outputs and
stays a stop. -/
theorem stepReading_next_of_fault {s t : State} {rest : List HostAction} {f : Fault} (hp : s.pending = .issue :: rest)
    (h : stepReading s = .next t) (hf : step s = .fault f) :
    ∃ code, t = { s with out := errorOutputs code (sample s), outOf := s.cfg, pending := rest } := by
  rcases goOnReading_next h with hn | ⟨g, out, hg, ho, rfl⟩
  · cases hn.symm.trans hf
  · rw [hp, List.tail_cons]
    rcases faultWritesNothing s rest g (.inr hp) hg with ⟨rfl, -⟩ | ⟨o, ⟨rfl, rfl⟩ | ⟨rfl, rfl⟩ | ⟨rfl, rfl⟩⟩
    · cases ho
    all_goals
      cases ho
      exact ⟨_, rfl⟩

theorem step_storeByte {s : State} {a : Nat} {rest : List HostAction} (hp : s.pending = .storeByte a :: rest) :
    step s = store a [s.out.byteOut] { s with pending := rest } :=
  step_cons hp

theorem step_storeBuf {s : State} {a : Nat} {rest : List HostAction} (hp : s.pending = .storeBuf a :: rest) :
    step s = store a (bufOutBytes s) { s with pending := rest } :=
  step_cons hp

/-- Storing bytes where they already stand leaves every byte of the host's memory as it reads. -/
theorem hostByte_of_store_present {a n : Nat} {bs : List Byte} {m : Memory} {s t : State}
    (h : store a bs s = .next t) (hm : s.mem = m) (hbs : bs = hostBytes m a n) (x : Nat) :
    hostByte t.mem x = hostByte m x := by
  rw [(store_next h).1, hm, hbs]
  refine (hostByte_storeBytes_map_range m a n _ x).trans ?_
  split_ifs with hx
  · rw [Nat.add_sub_cancel' hx.1]
  · rfl

/-- The byte sampled is the one that stands where it came from (R29). -/
theorem sample_byteIn_present {s : State} {a : Nat} (h : s.source.byte = some a) :
    [(sample s).inp.byteIn] = hostBytes s.mem a 1 := by
  rw [sample_byteIn, h, sampleByte_some]
  rfl

/-- The bytes of the buffer sampled are those that stand where it came from (R28). -/
theorem sample_bufIn_present {s : State} {a : Nat} (h : s.source.buf = some a) :
    (List.range s.cfg.N).map (byteAt (sample s).inp.bufIn) = hostBytes s.mem a s.cfg.N := by
  refine List.map_congr_left fun k hk => ?_
  rw [sample_bufIn, sampleBuf_of_some h, byteAt_hostBytes _ _ _ _ (List.mem_range.mp hk)]

/-- Settles O57: it holds. After an error the outputs are the inputs sampled, which stand where they would be stored. -/
theorem writeBackAfterErrorChangesNothing : Obligations.WriteBackAfterErrorChangesNothing := by
  rintro s t u a rest h ⟨f, hf⟩
  refine ⟨fun hsrc hp hu => ?_, fun hsrc hp hu => ?_⟩ <;> obtain ⟨code, rfl⟩ := stepReading_next_of_fault hp h hf
  · exact hostByte_of_store_present ((step_storeByte rfl).symm.trans hu) rfl (sample_byteIn_present hsrc)
  · exact hostByte_of_store_present ((step_storeBuf rfl).symm.trans hu) rfl (sample_bufIn_present hsrc)

end Sys2Proof.Machine

/-! PROOFS. The host's instances and threads (60_exceptions.md R186, R192). -/

namespace Sys2Proof.Machine

open Sys2Proof

/-- Only a turn changes whose turn it is and the threads that wait. -/
theorem ActionEffect.threads_eq {act : HostAction} {s t : State} (e : ActionEffect s act t) (h : ∀ n, act ≠ .turn n) :
    t.agent = s.agent ∧ t.parked = s.parked := by
  cases e with
  | turn n => exact absurd rfl (h n)
  | select | ports | store | setVar | record | issue => exact ⟨rfl, rfl⟩

/-- A thread that has not the turn is one of those that wait, or has not yet acted. -/
theorem threadOf_of_ne {s : State} {m : Nat} (h : m ≠ s.agent) :
    threadOf s m = (Memory.read? s.parked m).getD Thread.initial := by
  rw [threadOf, allThreads, read?_write, if_neg h]

/-- Settles O60: it holds. A turn parks one thread and takes up another, and no other action touches a parked thread. -/
theorem threadsShareMemoryAlone : Obligations.ThreadsShareMemoryAlone := by
  refine ⟨fun s n rest hp => ?_, fun s t h hn => ?_⟩
  · exact ⟨turnTo n { s with pending := rest }, step_cons hp, rfl, rfl, fun m => threadOf_turnTo n m _, rfl, rfl, rfl⟩
  · obtain ⟨hagent, hparked⟩ := (step_effect h).threads_eq fun n e => hn n (head?_of_nextAction e nofun)
    refine ⟨hagent, hparked, fun m hm => ?_⟩
    have hm' : m ≠ t.agent := hagent ▸ hm
    rw [threadOf_of_ne hm', threadOf_of_ne hm, hparked]

theorem hostAct_select_of_ok {p : Params} {cfg : Config} (h : elaborate p = .ok cfg) (s : State) :
    hostAct (.select p) s = .next (refit cfg s) := by
  simp [hostAct, h]

theorem hostAct_select_of_error {p : Params} {e : ConfigError} (h : elaborate p = .error e) (s : State) :
    hostAct (.select p) s = .refused (.illegalConfig e) := by
  simp [hostAct, h]

/-- Settles O44: it holds. Elaboration answers an instance exactly for legal parameters. -/
theorem illegalInstancesAreRefused : Obligations.IllegalInstancesAreRefused := by
  intro s p rest hp
  rw [step_cons hp]
  refine ⟨fun hl => ?_, fun hl => ?_⟩
  · obtain ⟨cfg, hcfg, hparams⟩ := exists_elaborate_ok_iff.mpr hl
    exact ⟨_, hostAct_select_of_ok hcfg _, hparams, rfl, rfl, rfl, rfl, rfl, rfl, rfl⟩
  · cases he : elaborate p with
    | ok cfg => exact absurd (elaborate_ok he).1 hl
    | error e => exact ⟨e, rfl, hostAct_select_of_error he _⟩

end Sys2Proof.Machine

/-! PROOFS. The block at reset, and that every issue ends (70_reset_and_hazards.md R210, R211, R216). -/

namespace Sys2Proof.Machine

open Sys2Proof

/-- An all-zero word has opcode 0, which selects no command on any instance (R73). -/
theorem illegalWord_zero (cfg : Config) : IllegalWord cfg 0#32 := .inl rfl

/-- Settles O32: it holds. The word's opcode is a reserved one, and ILLEGAL_OP comes first. -/
theorem allZeroWordDoesNothing : Obligations.AllZeroWordDoesNothing := by
  intro s rest hI hcmd
  obtain ⟨hillegal, -, -⟩ := errorsByPriority s rest hI
  exact hillegal (hcmd ▸ illegalWord_zero s.cfg)

/-- Settles O42: it holds. The word at reset is all zero, and `Thread.initial` holds the outputs of its ILLEGAL_OP. -/
theorem resetOutputsFollowInputs : Obligations.ResetOutputsFollowInputs := by
  refine ⟨?_, rfl, rfl, rfl, rfl, rfl, rfl, rfl⟩
  have hd : decode State.reset.cfg State.reset.inp.cmd = .error .illegalOp :=
    decode_of_illegalWord (illegalWord_zero State.reset.cfg)
  rw [respond_of_raise (runCommand_of_decode_error hd)]
  rfl

/-- Everything an issue can answer: a next state or a fault. -/
theorem issueSampled_ends (s : State) : (∃ t, issueSampled s = .next t) ∨ ∃ f, issueSampled s = .fault f := by
  rcases runCommand_cases s with ⟨e, he⟩ | ⟨i, hd, hc, -⟩
  · obtain ⟨f, hf, -⟩ := raise_eq e s
    exact .inr ⟨f, issueSampled_of_runCommand_fault (he.trans hf)⟩
  · rw [issueSampled_of_completes hd hc]
    rcases noteAll_cases (s := { s with out := drives i s, outOf := s.cfg })
      (fun a ha => (accessesOf_own s i a ha).1) with ⟨-, hnext⟩ | ⟨-, hrace⟩
    · exact .inl hnext
    · exact .inr ⟨.race, hrace⟩

/-- Settles O35: it holds. The block raises an error or completes, and recording what it read goes on or races. -/
theorem everyIssueEnds : Obligations.EveryIssueEnds := by
  intro s rest hI
  rw [step_issue hI]
  exact issueSampled_ends (sample { s with pending := rest })

end Sys2Proof.Machine

/-! PROOFS. The lost update (70_reset_and_hazards.md R214): two writes of disjoint spans of one bit string. -/

namespace Sys2Proof.Machine

open Sys2Proof

/-- The value bit that an instance of order `o` holds in bit `n` of the span of `size` bits from `base` (R123, R150). -/
def valueIndex (o : Order) (base size n : Nat) : Nat :=
  match o with
  | .lsb => n - base
  | .msb => base + size - 1 - n

/-- `new` is the bit string `old` with the low bits of `v` written, in order `o`, into the span of `size` bits from `base`. -/
def WritesSpan (o : Order) (base size v : Nat) (old new : Nat → Bool) : Prop :=
  ∀ n, new n = if base ≤ n ∧ n < base + size then v.testBit (valueIndex o base size n) else old n

section

variable {o : Order} {base size v : Nat} {old new old' new' : Nat → Bool}

theorem WritesSpan.outside (h : WritesSpan o base size v old new) {n : Nat} (hn : ¬ (base ≤ n ∧ n < base + size)) :
    new n = old n :=
  (h n).trans (if_neg hn)

/-- What a write puts in its span does not depend on what was there. -/
theorem WritesSpan.inside (h : WritesSpan o base size v old new) (h' : WritesSpan o base size v old' new') {n : Nat}
    (hn : base ≤ n ∧ n < base + size) : new n = new' n :=
  (h n).trans ((if_pos hn).trans ((if_pos hn).symm.trans (h' n).symm))

/-- The second of two writes of disjoint spans leaves the first span as it found it: as `first` left it where it is chained,
and as it was in `old` where it is not. In its own span it writes the same either way. -/
theorem WritesSpan.chained {o' : Order} {base' size' v' : Nat} {first chained unchained : Nat → Bool}
    (hdisj : base + size ≤ base' ∨ base' + size' ≤ base)
    (hc : WritesSpan o' base' size' v' first chained) (hu : WritesSpan o' base' size' v' old unchained) :
    (∀ n, base ≤ n → n < base + size → chained n = first n ∧ unchained n = old n) ∧
      (∀ n, base' ≤ n → n < base' + size' → chained n = unchained n) := by
  refine ⟨fun n hlo hhi => ?_, fun n hlo hhi => hc.inside hu ⟨hlo, hhi⟩⟩
  have hn : ¬ (base' ≤ n ∧ n < base' + size') := by omega
  exact ⟨hc.outside hn, hu.outside hn⟩

end

/-- A byte's bits from 8 on are 0 before and after a write, so to write a span of its 8 bits is to write it in all bits. -/
theorem writesSpan_of_byte {o : Order} {base size v : Nat} {old new : Byte} (h : base + size ≤ 8)
    (hbits : ∀ n < 8, new.getLsbD n =
      if base ≤ n ∧ n < base + size then v.testBit (valueIndex o base size n) else old.getLsbD n) :
    WritesSpan o base size v old.getLsbD new.getLsbD := by
  intro n
  rcases Nat.lt_or_ge n 8 with hn | hn
  · exact hbits n hn
  · rw [if_neg (by omega), BitVec.getLsbD_of_ge _ _ hn, BitVec.getLsbD_of_ge _ _ hn]

/-- SETB of either order writes the field's span of the byte (R123, R152). -/
theorem exec_setb_writesSpan {i : Instr} (hi : i = .setbLsb ∨ i = .setbMsb) :
    ∃ o, ∀ {s t : State}, exec i s = .next t →
      WritesSpan o s.cfg.P s.cfg.S s.inp.valueIn s.inp.byteIn.getLsbD t.out.byteOut.getLsbD := by
  rcases hi with rfl | rfl
  · refine ⟨.lsb, fun {s t} h => ?_⟩
    obtain ⟨hfits, rfl⟩ := exec_next h
    exact writesSpan_of_byte hfits fun _ => getLsbD_drives_setbLsb s
  · refine ⟨.msb, fun {s t} h => ?_⟩
    obtain ⟨hfits, rfl⟩ := exec_next h
    exact writesSpan_of_byte hfits fun _ => getLsbD_drives_setbMsb hfits

/-- SETBUF of either order writes the field's span of the buffer's bit stream (R125, R154). -/
theorem exec_setbuf_writesSpan {i : Instr} {boff : BitVec 16} (hi : i = .setbufLsb boff ∨ i = .setbufMsb boff) :
    ∃ o, ∀ {s t : State}, exec i s = .next t →
      WritesSpan o (s.cfg.P + 8 * boff.toNat) s.cfg.S s.inp.valueIn (streamBit s.inp.bufIn) (streamBit t.out.bufOut) := by
  rcases hi with rfl | rfl
  · refine ⟨.lsb, fun {s t} h => ?_⟩
    obtain ⟨-, rfl⟩ := exec_next h
    exact streamBit_drives_setbufLsb s boff
  · refine ⟨.msb, fun {s t} h => ?_⟩
    obtain ⟨-, rfl⟩ := exec_next h
    exact streamBit_drives_setbufMsb s boff

/-- Settles O48: it holds. The second SETB, chained or not, is one write of its own span. -/
theorem chainedByteWritesKeepBothFields : Obligations.ChainedByteWritesKeepBothFields := by
  intro s s' r t t' u i j _ hj hdisj _ hchain ht' hcfg hvalue hold hu
  obtain ⟨o, hwrites⟩ := exec_setb_writesSpan hj
  have hunchained := hwrites hu
  rw [hcfg, hvalue, hold] at hunchained
  exact WritesSpan.chained hdisj (hchain ▸ hwrites ht') hunchained

/-- Settles O49: it holds, as O48 does, of the buffers' bit streams. -/
theorem chainedBufferWritesKeepBothFields : Obligations.ChainedBufferWritesKeepBothFields := by
  intro s s' r t t' u k k' i j _ hj hdisj _ hchain ht' hcfg hvalue hold hu
  obtain ⟨o, hwrites⟩ := exec_setbuf_writesSpan hj
  have hunchained := hwrites hu
  rw [hcfg, hvalue, hold] at hunchained
  exact WritesSpan.chained hdisj (hchain ▸ hwrites ht') hunchained

end Sys2Proof.Machine

/-! PROOFS. The race of unserialised agents (70_reset_and_hazards.md R215; 20_memory.md R61, R62). -/

namespace Sys2Proof.Machine

open Sys2Proof

/-- Recording races exactly where a recorded access conflicts. -/
theorem note_race_iff {a : Access} {s : State} : note a s = .fault .race ↔ ∃ b ∈ s.accesses, conflict a b = true := by
  rw [← List.any_eq_true, note]
  split_ifs with hc <;> simp [hc]

/-- The present thread's accesses do not race with each other, so recording them races where one races with the record. -/
theorem noteAll_race_iff {as : List Access} {s : State} {n : Nat} (ha : ∀ a ∈ as, a.agent = n) :
    noteAll as s = .fault .race ↔ ∃ a ∈ as, ∃ b ∈ s.accesses, conflict a b = true := by
  rcases noteAll_cases (s := s) ha with ⟨hno, t, ht⟩ | ⟨hrace, hfault⟩
  · rw [ht]
    simp only [reduceCtorEq, false_iff]
    rintro ⟨a, ham, b, hb, hab⟩
    exact Bool.false_ne_true ((hno a ham b hb).symm.trans hab)
  · exact iff_of_true hfault hrace

theorem exists_conflict_useOf_iff (s : State) (lo n : Nat) (writes : Bool) :
    (∃ b ∈ s.accesses, conflict (useOf s lo n writes) b = true) ↔ Races s lo (lo + n) writes := by
  simp only [conflict_iff, Races, useOf, ne_comm]

theorem note_useOf_race_iff (s : State) (a n : Nat) (writes : Bool) :
    note (useOf s a n writes) s = .fault .race ↔ Races s a (a + n) writes :=
  note_race_iff.trans (exists_conflict_useOf_iff s a n writes)

theorem store_race_iff (s : State) (a : Nat) (bs : List Byte) :
    store a bs s = .fault .race ↔ Races s a (a + bs.length) true :=
  note_race_iff.trans (exists_conflict_useOf_iff s a bs.length true)

/-- A thread's own accesses race with none of its later ones. -/
theorem races_congr_own {s t : State} {a : Access} (hagent : t.agent = s.agent) (ha : a.agent = s.agent)
    (hmem : ∀ b, b ∈ t.accesses ↔ b ∈ s.accesses ∨ b = a) (lo hi : Nat) (writes : Bool) :
    Races t lo hi writes ↔ Races s lo hi writes := by
  simp only [Races, hagent, hmem, or_and_right, exists_or, exists_eq_left, ne_eq, ha, not_true, false_and, or_false]

theorem note_mem {a : Access} {s t : State} (h : note a s = .next t) (b : Access) :
    b ∈ t.accesses ↔ b ∈ s.accesses ∨ b = a := by
  simpa using noteAll_mem ((noteAll_singleton a s).trans h) b

theorem note_ne_refused (a : Access) (s : State) (e : Refusal) : note a s ≠ .refused e := by
  rw [note]
  split_ifs <;> exact nofun

/-- A copy races in its read or, that recorded, in its store (R215). -/
theorem copy_race_iff (s : State) (src dst n : Nat) :
    hostAct (.copy src dst n) s = .fault .race ↔ Races s src (src + n) false ∨ Races s dst (dst + n) true := by
  rw [hostAct, ← note_useOf_race_iff s src n false]
  cases hread : note (useOf s src n false) s with
  | fault f =>
    obtain ⟨rfl, -⟩ := note_fault hread
    simp [andThen]
  | refused e => exact absurd hread (note_ne_refused _ s e)
  | next t =>
    have hagent : t.agent = s.agent := by rw [(note_next hread).2]
    have hstore := store_race_iff t dst (hostBytes s.mem src n)
    rw [hostBytes_length, races_congr_own hagent rfl (note_mem hread)] at hstore
    simpa [andThen] using hstore

/-- A command's accesses race exactly where another agent's write-back is on record for a byte that it reads. -/
theorem exists_conflict_accessesOf_iff (s : State) (i : Instr) :
    (∃ a ∈ accessesOf s i, ∃ b ∈ s.accesses, conflict a b = true) ↔
      ∃ b ∈ s.accesses, b.agent ≠ s.agent ∧ b.writesBack = true ∧ ∃ x, ReadsByte s i x ∧ b.lo ≤ x ∧ x < b.hi := by
  constructor
  · rintro ⟨a, ha, b, hb, hab⟩
    obtain ⟨hown, hread⟩ := accessesOf_own s i a ha
    obtain ⟨hne, ⟨x, halo, hahi, hblo, hbhi⟩, hwrites⟩ := (conflict_iff a b).mp hab
    exact ⟨b, hb, fun e => hne (hown.trans e.symm), hwrites.resolve_left (by simp [hread]), x,
      (covers_accessesOf s i x).mp ⟨a, ha, halo, hahi⟩, hblo, hbhi⟩
  · rintro ⟨b, hb, hne, hwrites, x, hx, hblo, hbhi⟩
    obtain ⟨a, ha, halo, hahi⟩ := (covers_accessesOf s i x).mpr hx
    obtain ⟨hown, -⟩ := accessesOf_own s i a ha
    exact ⟨a, ha, b, hb, (conflict_iff a b).mpr
      ⟨fun e => hne (e.symm.trans hown), ⟨x, halo, hahi, hblo, hbhi⟩, .inr hwrites⟩⟩

/-- The issue of a command that completes races exactly where its reading does. -/
theorem step_issue_race_iff {s : State} {rest : List HostAction} {i : Instr} (hI : IssuesNext s rest)
    (hd : decode s.cfg s.inp.cmd = .ok i) (hc : completes i s.cfg) :
    step s = .fault .race ↔ ∃ a ∈ accessesOf s i, ∃ b ∈ s.accesses, conflict a b = true := by
  rw [step_issue hI, issue, issueSampled_of_completes (s := sample { s with pending := rest }) hd hc,
    accessesOf_sample, accessesOf_setPending]
  exact noteAll_race_iff fun a ha => (accessesOf_own s i a ha).1

/-- Settles O50: it holds. Each action faults where it records its accesses, and there exactly if one of them conflicts. -/
theorem unserialisedOverlapIsARace : Obligations.UnserialisedOverlapIsARace := by
  refine ⟨fun s t rest i hI hd h => ?_, fun s a n dst bs rest => ?_⟩
  · obtain ⟨hc, -⟩ := exec_next h
    exact (step_issue_race_iff hI hd hc).trans (exists_conflict_accessesOf_iff s i)
  · refine ⟨fun hp => ?_, fun hp => ?_, fun hp => ?_, fun hp => ?_, fun hp => ?_⟩ <;> rw [step_cons hp]
    · exact store_race_iff { s with pending := rest } a [s.out.byteOut]
    · have h := store_race_iff { s with pending := rest } a (bufOutBytes s)
      rwa [bufOutBytes_length] at h
    · exact store_race_iff { s with pending := rest } a bs
    · exact note_useOf_race_iff { s with pending := rest } a n false
    · exact copy_race_iff { s with pending := rest } a dst n

/-- Settles O51: it holds. An issue's race, and a read's, is over another agent's write-back on record. -/
theorem readersNeverRace : Obligations.ReadersNeverRace := by
  refine ⟨fun s rest hI hs h => ?_, fun s a n rest hs hp h => ?_, fun s rest hp => step_cons hp⟩
  · rcases faultWritesNothing s rest .race hI h with ⟨-, b, hb, hne, hwrites⟩ | ⟨out, ⟨h, -⟩ | ⟨h, -⟩ | ⟨h, -⟩⟩
    · exact Bool.false_ne_true ((hs b hb hne).symm.trans hwrites)
    all_goals cases h
  · rw [step_cons hp] at h
    obtain ⟨b, hb, hne, -, hwrites⟩ := (note_useOf_race_iff { s with pending := rest } a n false).mp h
    exact Bool.false_ne_true ((hs b hb hne).symm.trans (hwrites.resolve_left Bool.false_ne_true))

end Sys2Proof.Machine
